-- ==== Sys2Proof/Word.lean ====
section
/-! DEFINITION. The word types of the CHIP-8 core (00_scope.md R5, R8). -/

namespace Sys2Proof

/-- An 8-bit value: a V register, SP, DT, ST, a byte of memory (R5). -/
abbrev Byte := BitVec 8

/-- A 16-bit value: I, PC, a call-stack slot, an instruction word (R5). -/
abbrev Word := BitVec 16

/-- A register selector, the 4-bit field x or y (R23, R81): every value names a register. -/
abbrev Reg := BitVec 4

/-- The 4-bit immediate n (R81). -/
abbrev Nibble := BitVec 4

/-- The 12-bit immediate address nnn (R81). -/
abbrev Addr := BitVec 12

/-- The selector of VF, the register some instructions also write as a flag (R22). -/
abbrev vf : Reg := 15#4

end Sys2Proof
end

