-- ==== Sys2Proof/Config.lean ====
section
/-! DEFINITION. The behaviour parameters of 00_scope.md R6, as types, and the free values of the model.
The values the hardware takes by default are in Sys2Proof/Machine/Defaults.lean. The fixed parameters of R5 stand
where they are used: the widths in Sys2Proof/Word.lean, the counts in the fields of State. -/

namespace Sys2Proof

/-- SYS_MODE (R85): what a group-0 word other than 00E0 and 00EE does. -/
inductive SysMode where
  | fault
  | nop
  deriving DecidableEq, Repr

/-- ALU_VF_READ (R132): when the flag instructions of group 8 read Vx and Vy, relative to their write of VF. -/
inductive AluVfRead where
  | snapshot
  | reread
  deriving DecidableEq, Repr

/-- STOP_CMP (R93): the comparison of the stop test. -/
inductive StopCmp where
  | ge
  | gt
  deriving DecidableEq, Repr

/-- ADDR_WRAP (R64): whether computed addresses are taken modulo 4096. -/
inductive AddrWrap where
  | unwrapped
  | mod4096
  deriving DecidableEq, Repr

/-- DRAW_EDGE (R162): what becomes of sprite pixels past the right or bottom edge. -/
inductive DrawEdge where
  | wrap
  | clip
  deriving DecidableEq, Repr

/-- KEY_SELECT (R181): which key Fx0A records when several are pressed. -/
inductive KeySelect where
  | lowest
  | any
  deriving DecidableEq, Repr

/-- The behaviour parameters of R6, all but FONT_TABLE (which is part of memory's reset contents).
DESIGN CHOICE (log 1), safe: they are carried in State, so that exec and step take them as an argument. -/
structure Params where
  sysMode         : SysMode
  /-- LOOSE_5_9 (R89): whether 5xyN and 9xyN with N ≠ 0 execute. -/
  loose59         : Bool
  aluVfRead       : AluVfRead
  stopCmp         : StopCmp
  addrWrap        : AddrWrap
  /-- PROTECT_RESERVED (R63): whether an instruction's write below 0x200 faults. -/
  protectReserved : Bool
  drawEdge        : DrawEdge
  keySelect       : KeySelect
  deriving DecidableEq, Repr

/-- FONT_TABLE (R6, R43): 16 glyphs of 5 bytes, any 80 bytes. -/
abbrev FontTable := Vector Byte 80

/-- `draw_byte()` of R13 and R152: the byte of the draw numbered n. A free value (log 8): it has no body, so any byte
is admitted at every draw and no claim can rest on one. -/
opaque Config.drawByte : Nat → Byte

/-- The choice Fx0A makes among the pressed keys when KEY_SELECT = any (R181), at the draw numbered n. A free value
(log 9): the model takes it modulo the number of pressed keys. -/
opaque Config.drawKey : Nat → Nat

end Sys2Proof
end

