-- ==== Sys2Proof/Machine/Defaults.lean ====
section
/-! DEFINITION. The values the parameters of 00_scope.md R6 take by default on this hardware. -/

namespace Sys2Proof

/-- The defaults of R6, each the spec's own decision where the source is open: DESIGN CHOICE, unsafe, logs 9 and 11 to 17. -/
def Params.default : Params where
  sysMode := .fault
  loose59 := false
  aluVfRead := .snapshot
  stopCmp := .ge
  addrWrap := .unwrapped
  protectReserved := true
  drawEdge := .wrap
  keySelect := .lowest

/-- Glyphs 0 to 7 of the table of R43. -/
def fontLow : Vector Byte 40 :=
  #v[0xF0, 0x90, 0x90, 0x90, 0xF0, 0x20, 0x60, 0x20, 0x20, 0x70, 0xF0, 0x10, 0xF0, 0x80, 0xF0, 0xF0, 0x10, 0xF0, 0x10, 0xF0,
     0x90, 0x90, 0xF0, 0x10, 0x10, 0xF0, 0x80, 0xF0, 0x10, 0xF0, 0xF0, 0x80, 0xF0, 0x90, 0xF0, 0xF0, 0x10, 0x20, 0x40, 0x40]

/-- Glyphs 8 to F of the table of R43. -/
def fontHigh : Vector Byte 40 :=
  #v[0xF0, 0x90, 0xF0, 0x90, 0xF0, 0xF0, 0x90, 0xF0, 0x10, 0xF0, 0xF0, 0x90, 0xF0, 0x90, 0x90, 0xE0, 0x90, 0xE0, 0x90, 0xE0,
     0xF0, 0x80, 0x80, 0x80, 0xF0, 0xE0, 0x90, 0x90, 0x90, 0xE0, 0xF0, 0x80, 0xF0, 0x80, 0xF0, 0xF0, 0x80, 0xF0, 0x80, 0x80]

/-- FONT_TABLE's default, the table of R43, whose bytes are PRESUMED, from general knowledge, as the spec marks them (log 6),
unsafe. -/
def FontTable.default : FontTable :=
  fontLow ++ fontHigh

end Sys2Proof
end

