-- ==== Sys2Proof/Syntax.lean ====
section
/-! DEFINITION. The 34 instructions of 00_scope.md R2, one constructor per row of spec/opcode_table.json, with the operand
fields of 30_encoding.md R81. SHR and SHL keep the y field, which they do not read (R98, conflict C10). -/

namespace Sys2Proof

inductive Instr where
  /-- 00E0 CLS, R110. -/
  | cls
  /-- 00EE RET, R111. -/
  | ret
  /-- 1nnn JP addr, R112. -/
  | jp (nnn : Addr)
  /-- 2nnn CALL addr, R113. -/
  | call (nnn : Addr)
  /-- 3xkk SE Vx, byte, R120. -/
  | seImm (x : Reg) (kk : Byte)
  /-- 4xkk SNE Vx, byte, R121. -/
  | sneImm (x : Reg) (kk : Byte)
  /-- 5xy0 SE Vx, Vy, R122. -/
  | seReg (x y : Reg)
  /-- 6xkk LD Vx, byte, R130. -/
  | ldImm (x : Reg) (kk : Byte)
  /-- 7xkk ADD Vx, byte, R131. -/
  | addImm (x : Reg) (kk : Byte)
  /-- 8xy0 LD Vx, Vy, R133. -/
  | ldReg (x y : Reg)
  /-- 8xy1 OR Vx, Vy, R134. -/
  | orReg (x y : Reg)
  /-- 8xy2 AND Vx, Vy, R135. -/
  | andReg (x y : Reg)
  /-- 8xy3 XOR Vx, Vy, R136. -/
  | xorReg (x y : Reg)
  /-- 8xy4 ADD Vx, Vy, R137. -/
  | addReg (x y : Reg)
  /-- 8xy5 SUB Vx, Vy, R138. -/
  | subReg (x y : Reg)
  /-- 8xy6 SHR Vx, Vy, R139; y is encoded and not read. -/
  | shr (x y : Reg)
  /-- 8xy7 SUBN Vx, Vy, R140. -/
  | subn (x y : Reg)
  /-- 8xyE SHL Vx, Vy, R141; y is encoded and not read. -/
  | shl (x y : Reg)
  /-- 9xy0 SNE Vx, Vy, R123. -/
  | sneReg (x y : Reg)
  /-- Annn LD I, addr, R150. -/
  | ldI (nnn : Addr)
  /-- Bnnn JP V0, addr, R151. -/
  | jpV0 (nnn : Addr)
  /-- Cxkk RND Vx, byte, R152. -/
  | rnd (x : Reg) (kk : Byte)
  /-- Dxyn DRW Vx, Vy, nibble, R160. -/
  | drw (x y : Reg) (n : Nibble)
  /-- Ex9E SKP Vx, R170. -/
  | skp (x : Reg)
  /-- ExA1 SKNP Vx, R171. -/
  | sknp (x : Reg)
  /-- Fx07 LD Vx, DT, R180. -/
  | ldVxDt (x : Reg)
  /-- Fx0A LD Vx, K, R181. -/
  | ldVxK (x : Reg)
  /-- Fx15 LD DT, Vx, R182. -/
  | ldDtVx (x : Reg)
  /-- Fx18 LD ST, Vx, R183. -/
  | ldStVx (x : Reg)
  /-- Fx1E ADD I, Vx, R184. -/
  | addIVx (x : Reg)
  /-- Fx29 LD F, Vx, R185. -/
  | ldFVx (x : Reg)
  /-- Fx33 LD B, Vx, R186. -/
  | ldBVx (x : Reg)
  /-- Fx55 LD [I], Vx, R187. -/
  | ldMemVx (x : Reg)
  /-- Fx65 LD Vx, [I], R188. -/
  | ldVxMem (x : Reg)
  deriving DecidableEq, Repr

end Sys2Proof
end

