-- ==== Sys2Proof/Decode.lean ====
section
/-! DEFINITION. The decoder of 30_encoding.md R84 to R92, total on any bytes, and after it the encoder, written from the formats
of R83 and the opcode map of R100. -/

namespace Sys2Proof

/-- `op[hi:lo]`, as an unsigned number (R7). -/
def field (op : Word) (hi lo : Nat) : Nat :=
  op.toNat / 2 ^ lo % 2 ^ (hi + 1 - lo)

/-- g, the group of a word: "the opcode's top 4 bits" (R81, R84). -/
def fieldG (op : Word) : Nat := field op 15 12

/-- x, the first register selector (R81). -/
def fieldX (op : Word) : Reg := BitVec.ofNat 4 (field op 11 8)

/-- y, the second register selector (R81). -/
def fieldY (op : Word) : Reg := BitVec.ofNat 4 (field op 7 4)

/-- n, the low nibble (R81). -/
def fieldN (op : Word) : Nibble := BitVec.ofNat 4 (field op 3 0)

/-- kk, the low byte (R81). -/
def fieldKK (op : Word) : Byte := BitVec.ofNat 8 (field op 7 0)

/-- nnn, the low 12 bits (R81). -/
def fieldNNN (op : Word) : Addr := BitVec.ofNat 12 (field op 11 0)

/-- Why bytes are no instruction: the group whose rule refuses the word (R91), or too few bytes to hold a word (R80). -/
inductive Illegal where
  | group0
  | group5
  | group8
  | group9
  | groupE
  | groupF
  | truncated
  deriving DecidableEq, Repr

/-- The verdict of the decoder (R97): one of the 34 instructions, the group-0 no-op of SYS_MODE = nop, or illegal. -/
inductive Decoded where
  | instr (i : Instr)
  | sysNop
  | illegal (why : Illegal)
  deriving DecidableEq, Repr

/-- Group 0 sub-dispatches on the whole word (R85). -/
def decodeGroup0 (p : Params) (op : Word) : Decoded :=
  match op.toNat with
  | 0x00E0 => .instr .cls
  | 0x00EE => .instr .ret
  | _ =>
    match p.sysMode with
    | .fault => .illegal .group0
    | .nop => .sysNop

/-- Groups 5 and 9 (R89): the low nibble must be 0, unless LOOSE_5_9 = true, when it is ignored. -/
def decodeZeroNibble (p : Params) (op : Word) (i : Instr) (why : Illegal) : Decoded :=
  if p.loose59 || fieldN op == 0 then .instr i else .illegal why

/-- Group 8 sub-dispatches on n (R86). -/
def decodeGroup8 (op : Word) : Decoded :=
  match field op 3 0 with
  | 0x0 => .instr (.ldReg (fieldX op) (fieldY op))
  | 0x1 => .instr (.orReg (fieldX op) (fieldY op))
  | 0x2 => .instr (.andReg (fieldX op) (fieldY op))
  | 0x3 => .instr (.xorReg (fieldX op) (fieldY op))
  | 0x4 => .instr (.addReg (fieldX op) (fieldY op))
  | 0x5 => .instr (.subReg (fieldX op) (fieldY op))
  | 0x6 => .instr (.shr (fieldX op) (fieldY op))
  | 0x7 => .instr (.subn (fieldX op) (fieldY op))
  | 0xE => .instr (.shl (fieldX op) (fieldY op))
  | _ => .illegal .group8

/-- Group E sub-dispatches on kk (R87). -/
def decodeGroupE (op : Word) : Decoded :=
  match field op 7 0 with
  | 0x9E => .instr (.skp (fieldX op))
  | 0xA1 => .instr (.sknp (fieldX op))
  | _ => .illegal .groupE

/-- Group F sub-dispatches on kk (R88). -/
def decodeGroupF (op : Word) : Decoded :=
  match field op 7 0 with
  | 0x07 => .instr (.ldVxDt (fieldX op))
  | 0x0A => .instr (.ldVxK (fieldX op))
  | 0x15 => .instr (.ldDtVx (fieldX op))
  | 0x18 => .instr (.ldStVx (fieldX op))
  | 0x1E => .instr (.addIVx (fieldX op))
  | 0x29 => .instr (.ldFVx (fieldX op))
  | 0x33 => .instr (.ldBVx (fieldX op))
  | 0x55 => .instr (.ldMemVx (fieldX op))
  | 0x65 => .instr (.ldVxMem (fieldX op))
  | _ => .illegal .groupF

/-- The first level of decode selects one of the 16 groups by g (R84). The sub-opcode values of groups 0, 5, 8, 9, E and F
are PRESUMED, from general knowledge, as the spec marks them (log 7), unsafe. -/
def decodeWord (p : Params) (op : Word) : Decoded :=
  match fieldG op with
  | 0x0 => decodeGroup0 p op
  | 0x1 => .instr (.jp (fieldNNN op))
  | 0x2 => .instr (.call (fieldNNN op))
  | 0x3 => .instr (.seImm (fieldX op) (fieldKK op))
  | 0x4 => .instr (.sneImm (fieldX op) (fieldKK op))
  | 0x5 => decodeZeroNibble p op (.seReg (fieldX op) (fieldY op)) .group5
  | 0x6 => .instr (.ldImm (fieldX op) (fieldKK op))
  | 0x7 => .instr (.addImm (fieldX op) (fieldKK op))
  | 0x8 => decodeGroup8 op
  | 0x9 => decodeZeroNibble p op (.sneReg (fieldX op) (fieldY op)) .group9
  | 0xA => .instr (.ldI (fieldNNN op))
  | 0xB => .instr (.jpV0 (fieldNNN op))
  | 0xC => .instr (.rnd (fieldX op) (fieldKK op))
  | 0xD => .instr (.drw (fieldX op) (fieldY op) (fieldN op))
  | 0xE => decodeGroupE op
  | _ => decodeGroupF op

/-- `hi ++ lo` of R94: the first byte is the high byte of the word (R65; DEDUCED, log 22). -/
def wordOfBytes (hi lo : Byte) : Word :=
  BitVec.ofNat 16 (hi.toNat * 256 + lo.toNat)

/-- The high byte of a word, which lies first in memory (R65). -/
def highByte (w : Word) : Byte := BitVec.ofNat 8 (w.toNat / 256)

/-- The low byte of a word, which lies second in memory (R65). -/
def lowByte (w : Word) : Byte := BitVec.ofNat 8 w.toNat

/-- The decoder on bytes: the verdict on the first two, high byte first (R65, R80), and the bytes after them. -/
def decodeBytes (p : Params) : List Byte → Decoded × List Byte
  | hi :: lo :: rest => (decodeWord p (wordOfBytes hi lo), rest)
  | [lo] => (.illegal .truncated, [lo])
  | [] => (.illegal .truncated, [])

/-- Format A of R83: g and nnn. -/
def formatA (g : Nat) (nnn : Addr) : Word :=
  BitVec.ofNat 16 (g * 0x1000 + nnn.toNat)

/-- Format XK of R83: g, x and kk. -/
def formatXK (g : Nat) (x : Reg) (kk : Byte) : Word :=
  BitVec.ofNat 16 (g * 0x1000 + x.toNat * 0x100 + kk.toNat)

/-- Format XY of R83: g, x, y and the sub-opcode f; and format XYN, with n for f. -/
def formatXY (g : Nat) (x y : Reg) (f : Nat) : Word :=
  BitVec.ofNat 16 (g * 0x1000 + x.toNat * 0x100 + y.toNat * 0x10 + f)

/-- Format X of R83: g, x and the sub-opcode byte f. -/
def formatX (g : Nat) (x : Reg) (f : Nat) : Word :=
  BitVec.ofNat 16 (g * 0x1000 + x.toNat * 0x100 + f)

/-- The word of an instruction (R83, R100). -/
def encode : Instr → Word
  | .cls => 0x00E0#16
  | .ret => 0x00EE#16
  | .jp nnn => formatA 0x1 nnn
  | .call nnn => formatA 0x2 nnn
  | .seImm x kk => formatXK 0x3 x kk
  | .sneImm x kk => formatXK 0x4 x kk
  | .seReg x y => formatXY 0x5 x y 0x0
  | .ldImm x kk => formatXK 0x6 x kk
  | .addImm x kk => formatXK 0x7 x kk
  | .ldReg x y => formatXY 0x8 x y 0x0
  | .orReg x y => formatXY 0x8 x y 0x1
  | .andReg x y => formatXY 0x8 x y 0x2
  | .xorReg x y => formatXY 0x8 x y 0x3
  | .addReg x y => formatXY 0x8 x y 0x4
  | .subReg x y => formatXY 0x8 x y 0x5
  | .shr x y => formatXY 0x8 x y 0x6
  | .subn x y => formatXY 0x8 x y 0x7
  | .shl x y => formatXY 0x8 x y 0xE
  | .sneReg x y => formatXY 0x9 x y 0x0
  | .ldI nnn => formatA 0xA nnn
  | .jpV0 nnn => formatA 0xB nnn
  | .rnd x kk => formatXK 0xC x kk
  | .drw x y n => formatXY 0xD x y n.toNat
  | .skp x => formatX 0xE x 0x9E
  | .sknp x => formatX 0xE x 0xA1
  | .ldVxDt x => formatX 0xF x 0x07
  | .ldVxK x => formatX 0xF x 0x0A
  | .ldDtVx x => formatX 0xF x 0x15
  | .ldStVx x => formatX 0xF x 0x18
  | .addIVx x => formatX 0xF x 0x1E
  | .ldFVx x => formatX 0xF x 0x29
  | .ldBVx x => formatX 0xF x 0x33
  | .ldMemVx x => formatX 0xF x 0x55
  | .ldVxMem x => formatX 0xF x 0x65

/-- The bytes of an instruction as memory holds them, high byte first (R65, R80). -/
def encodeBytes (i : Instr) : List Byte :=
  [highByte (encode i), lowByte (encode i)]

/-- The word the host means by `nbits` table bits of value `w`: the bits above `nbits` are 0. -/
def tableWord (nbits w : Nat) : Word :=
  BitVec.ofNat 16 (w % 2 ^ nbits)

/-- The instruction the decoder reads from a table word, at the default parameters. A row of more than 16 bits is no
instruction of this machine (R80). -/
def decodeTableWord (nbits w : Nat) : Option Instr :=
  if nbits ≤ 16 then
    match decodeBytes Params.default [highByte (tableWord nbits w), lowByte (tableWord nbits w)] with
    | (.instr i, _) => some i
    | (.sysNop, _) => none
    | (.illegal _, _) => none
  else none

end Sys2Proof
end

