-- ==== Sys2Proof/Machine/State.lean ====
section
/-! DEFINITION. The state of the core (10_state.md R20 to R37), the reasons a step can stop, and the state after reset
(10_state.md R41). -/

namespace Sys2Proof.Machine

/-- The four kinds of fault of R200. -/
inductive FaultKind where
  | decodeFault
  | stackFault
  | boundsFault
  | configFault
  deriving DecidableEq, Repr

/-- The sub-kind and the recorded info of a fault raised by a step (R200, R203). Its kind is FaultCause.kind. Addresses are
the unbounded sums of R64. -/
inductive FaultCause where
  /-- DecodeFault (R201): the fetched word is in the illegal space. -/
  | decode
  /-- StackFault overflow (R202): CALL with a full stack. -/
  | stackOverflow (sp : Byte)
  /-- StackFault underflow (R202): RET with an empty stack. -/
  | stackUnderflow (sp : Byte)
  /-- BoundsFault fetch (R94). -/
  | fetch (addr : Nat)
  /-- BoundsFault mem_read (R62): DRW, Fx65. -/
  | memRead (addr : Nat)
  /-- BoundsFault mem_write (R63): Fx33, Fx55. -/
  | memWrite (addr : Nat)
  /-- BoundsFault reserved_write (R63): Fx33, Fx55. -/
  | reservedWrite (addr : Nat)
  /-- BoundsFault key_index (R172): Ex9E, ExA1. -/
  | keyIndex (index : Byte)
  deriving DecidableEq, Repr

/-- `Faulted(kind, opcode, pc, info)` of R37 and R205, the kind computed from the cause. -/
structure FaultRecord where
  cause  : FaultCause
  opcode : Word
  pc     : Word
  deriving DecidableEq, Repr

/-- The run state (R37). -/
inductive RunState where
  | running
  | stopped
  | faulted (f : FaultRecord)
  deriving DecidableEq, Repr

/-- Why the model stops with Outcome.fault. The faults of R200 that a step raises are NOT here: they are entered, as a next
state whose run state is Faulted (R205). -/
inductive Fault where
  /-- ConfigFault rom_too_long (R204, R241): raised by the host operation `initialize` alone, on a ROM of more than 3584
  bytes, which leaves no state. Safe: the spec gives no state to go on from. -/
  | romTooLong (length : Nat)
  /-- Raised by CALL and RET when SP is above 16, a value R27 says SP does not hold and no run reaches: there is no stack
  slot to write or read. Safe: the model stops where the spec gives no meaning (log 10). -/
  | stackPointer (sp : Byte)
  deriving DecidableEq, Repr

/-- Why the model refuses. -/
inductive Refusal where
  /-- Raised by a rejected arm of exec: the instruction has no meaning yet. Safe: nothing can be proved of its run. -/
  | notModelled (mnemonic : String)
  /-- Raised by the host action `set_key` with a key number above 15, which "is not a valid host action and is refused by the
  model's host interface" (R217). Safe: no state follows. -/
  | keyNumber (k : Nat)
  deriving DecidableEq, Repr

/-- The memory of R31: 4096 bytes. `font` is the FONT_TABLE parameter (R6), which with zeros elsewhere is what a byte that
nothing has written reads as (R42); `cells` lists the bytes that differ from that, by rising address (Memory.wf). -/
structure Memory where
  font  : FontTable
  cells : List Host.Cell
  deriving DecidableEq, Repr

/-- The 32 rows of 64 pixels of R32: false is 0 (off), true is 1 (on). -/
abbrev Display := Vector (Vector Bool 64) 32

/-- The state aggregate of R20. The last two fields are the model's own: `params` (R6, log 1), which nothing writes, and
`draws`, the number of free values drawn so far (R13, log 8). -/
structure State where
  mem    : Memory
  v      : Vector Byte 16
  i      : Word
  pc     : Word
  sp     : Byte
  stack  : Vector Word 16
  dt     : Byte
  st     : Byte
  disp   : Display
  redraw : Bool
  key    : Vector Bool 16
  opcode : Word
  romLen : Nat
  run    : RunState
  params : Params
  draws  : Nat
  deriving DecidableEq, Repr

/-- The state after `initialize` of the empty ROM, at the default parameters (R41, R42). A program comes to run when the host
initializes with its bytes (log 3). The zeros of I, the stack, the timers, the display, the redraw flag, the keys, the opcode
and the memory outside the font are the spec's decision D21 (DESIGN CHOICE, logs 4 and 5); `draws` is the model's (log 8). -/
def State.reset : State where
  mem    := { font := FontTable.default, cells := [] }
  v      := Vector.replicate 16 0#8
  i      := 0#16
  pc     := 0x200#16
  sp     := 0#8
  stack  := Vector.replicate 16 0#16
  dt     := 0#8
  st     := 0#8
  disp   := Vector.replicate 32 (Vector.replicate 64 false)
  redraw := false
  key    := Vector.replicate 16 false
  opcode := 0x0000#16
  romLen := 0
  run    := .running
  params := Params.default
  draws  := 0

end Sys2Proof.Machine
end

