-- ==== Sys2Proof/Machine/Ops.lean ====
section
/-! DEFINITION. The named operations over the state that the meanings share: updates of one component, memory (20_memory.md R62
to R64, R70), fault entry (60_exceptions.md R205), the ways a handler leaves PC (10_state.md R26), the call stack, the fetch
and the stop test (30_encoding.md R93, R94) and the timer tick (60_exceptions.md R211). -/

namespace Sys2Proof.Machine

/-- The outcome of a handler or of a step. -/
abbrev Out := Host.Outcome State Fault Refusal

/-! ### Registers and single components -/

/-- `V[r]` (R9, R21). -/
def State.getV (s : State) (r : Reg) : Byte :=
  s.v[r.toNat]'r.isLt

/-- `V[r] <- b` (R9, R21): no register is hardwired. -/
def State.setV (s : State) (r : Reg) (b : Byte) : State :=
  { s with v := s.v.set r.toNat b r.isLt }

/-- `I <- w` (R24). -/
def State.setI (s : State) (w : Word) : State := { s with i := w }

/-- `PC <- w` (R25). -/
def State.setPc (s : State) (w : Word) : State := { s with pc := w }

/-- `DT <- b` (R29). -/
def State.setDt (s : State) (b : Byte) : State := { s with dt := b }

/-- `ST <- b` (R30). -/
def State.setSt (s : State) (b : Byte) : State := { s with st := b }

/-- The memory after writes (R31). -/
def State.setMem (s : State) (m : Memory) : State := { s with mem := m }

/-- The display after writes (R32). -/
def State.setDisp (s : State) (d : Display) : State := { s with disp := d }

/-- `redraw <- b` (R33). -/
def State.setRedraw (s : State) (b : Bool) : State := { s with redraw := b }

/-- `opcode <- w` (R35). -/
def State.setOpcode (s : State) (w : Word) : State := { s with opcode := w }

/-- `run <- r` (R37). -/
def State.setRun (s : State) (r : RunState) : State := { s with run := r }

/-- One more free value has been drawn (R13, log 8). -/
def State.countDraw (s : State) : State := { s with draws := s.draws + 1 }

/-! ### PC (R26) -/

/-- `PC <- PC + 2`, mod 2^16: the next instruction (R26). -/
def State.advance (s : State) : State := s.setPc (s.pc + 2)

/-- `PC <- PC + 4` when the condition holds, else `PC <- PC + 2` (R26, R124). -/
def State.skipIf (s : State) (c : Bool) : State :=
  s.setPc (if c then s.pc + 4 else s.pc + 2)

/-! ### Faults -/

/-- The kind of a cause (R200). -/
def FaultCause.kind : FaultCause → FaultKind
  | .decode => .decodeFault
  | .stackOverflow _ => .stackFault
  | .stackUnderflow _ => .stackFault
  | .fetch _ => .boundsFault
  | .memRead _ => .boundsFault
  | .memWrite _ => .boundsFault
  | .reservedWrite _ => .boundsFault
  | .keyIndex _ => .boundsFault

/-- The codes of R200, the spec's own numbering (decision D35, log 33). -/
def FaultKind.code : FaultKind → Nat
  | .decodeFault => 1
  | .stackFault => 2
  | .boundsFault => 3
  | .configFault => 4

/-- The kind of the record of a Faulted core (R37). -/
def FaultRecord.kind (f : FaultRecord) : FaultKind := f.cause.kind

/-- Fault entry (R205): `run <- Faulted(kind, opcode, pc, info)` and nothing else. PC is still the address of the faulting
instruction, and `opcode` the word the step fetched, or for a fetch fault the word before. There is no return from it (R206). -/
def State.enterFault (s : State) (c : FaultCause) : State :=
  s.setRun (.faulted { cause := c, opcode := s.opcode, pc := s.pc })

/-- `raise` (R11, R205): the step ends in the Faulted state (log 2). -/
def raise (c : FaultCause) (s : State) : Out :=
  .next (s.enterFault c)

/-- A handler that checks before it writes (R11, R70): with an offence it raises it, and nothing is written; with none it
goes on to `t`. -/
def guarded (offence : Option FaultCause) (s t : State) : Out :=
  match offence with
  | some c => raise c s
  | none => .next t

/-! ### Memory -/

/-- What a byte nothing has written reads as (R42): the font at 0x000..0x04F, zero elsewhere. The zero is the spec's decision
D21 (DESIGN CHOICE, unsafe, log 5). -/
def Memory.unlisted (m : Memory) (a : Nat) : Byte :=
  if h : a < 80 then m.font[a] else 0#8

/-- The byte listed for an address, if one is. -/
def lookupCell : List Host.Cell → Nat → Option Byte
  | [], _ => none
  | c :: cs, a => if c.1 = a then some c.2 else lookupCell cs a

/-- The cells without the address. -/
def removeCell : List Host.Cell → Nat → List Host.Cell
  | [], _ => []
  | c :: cs, a => if c.1 = a then removeCell cs a else c :: removeCell cs a

/-- The cells with the byte listed for the address, by rising address. -/
def insertCell : List Host.Cell → Nat → Byte → List Host.Cell
  | [], a, b => [(a, b)]
  | c :: cs, a, b =>
    if a < c.1 then (a, b) :: c :: cs
    else if c.1 = a then (a, b) :: cs
    else c :: insertCell cs a b

/-- `mem[a]` (R62), for an address the caller has checked. -/
def Memory.read (m : Memory) (a : Nat) : Byte :=
  (lookupCell m.cells a).getD (m.unlisted a)

/-- `mem[a] <- b` (R63), for an address the caller has checked. The form stays canonical: a byte that an unlisted address
reads as is not listed. -/
def Memory.write (m : Memory) (a : Nat) (b : Byte) : Memory :=
  { m with cells := if b = m.unlisted a then removeCell m.cells a else insertCell m.cells a b }

/-- The cells lie at strictly rising addresses, all at or above `lo`. -/
def risingFrom : Nat → List Host.Cell → Bool
  | _, [] => true
  | lo, c :: cs => decide (lo ≤ c.1) && risingFrom (c.1 + 1) cs

/-- The canonical form of memory: rising addresses of 0x000..0xFFF, and no entry equal to what an unlisted address reads as. -/
def Memory.wf (m : Memory) : Bool :=
  risingFrom 0 m.cells && m.cells.all fun c => decide (c.1 < 4096) && decide (c.2 ≠ m.unlisted c.1)

/-- An address sum brought to the form it is checked in (R64): as it is, or mod 4096. -/
def wrapAddr (p : Params) (a : Nat) : Nat :=
  match p.addrWrap with
  | .unwrapped => a
  | .mod4096 => a % 4096

/-- The effective address of byte k of a block at `base` (R64): the unbounded sum, wrapped as ADDR_WRAP says. -/
def blockAddr (p : Params) (base : Word) (k : Nat) : Nat :=
  wrapAddr p (base.toNat + k)

/-- The addresses of a block of `len` bytes at `base`, in increasing order of k (R207). -/
def blockAddrs (p : Params) (base : Word) (len : Nat) : List Nat :=
  (List.range len).map (blockAddr p base)

/-- The check of MemRead (R62). -/
def readCheck (a : Nat) : Option FaultCause :=
  if a > 0xFFF then some (.memRead a) else none

/-- The checks of MemWrite (R63): the bound, then the reserved area when PROTECT_RESERVED = true. -/
def writeCheck (p : Params) (a : Nat) : Option FaultCause :=
  if a > 0xFFF then some (.memWrite a)
  else if p.protectReserved && decide (a < 0x200) then some (.reservedWrite a)
  else none

/-- The block is checked whole, the first offending address being the one recorded (R70, R203, R207): reads. -/
def readOffence (s : State) (len : Nat) : Option FaultCause :=
  (blockAddrs s.params s.i len).findSome? readCheck

/-- The block is checked whole, the first offending address being the one recorded (R70, R203, R207): writes. -/
def writeOffence (s : State) (len : Nat) : Option FaultCause :=
  (blockAddrs s.params s.i len).findSome? (writeCheck s.params)

/-- The bytes of the block of `len` bytes at I (R69). -/
def loadBlock (s : State) (len : Nat) : List Byte :=
  (blockAddrs s.params s.i len).map s.mem.read

/-- The bytes written one after another at the addresses (R69, R71). -/
def writeBytes : Memory → List Nat → List Byte → Memory
  | m, a :: as, b :: bs => writeBytes (m.write a b) as bs
  | m, _, _ => m

/-- The block of bytes written at I (R69). -/
def storeBlock (s : State) (bytes : List Byte) : State :=
  s.setMem (writeBytes s.mem (blockAddrs s.params s.i bytes.length) bytes)

/-- Bytes written at consecutive addresses: the copy of the ROM by `initialize` (R240). -/
def loadBytes (m : Memory) (base : Nat) (bytes : List Byte) : Memory :=
  writeBytes m ((List.range bytes.length).map (base + ·)) bytes

/-! ### The call stack (R27, R28) -/

/-- The push of CALL (R113): `stack[SP] <- w; SP <- SP + 1`. -/
def State.push (s : State) (w : Word) (h : s.sp.toNat < 16) : State :=
  { s with stack := s.stack.set s.sp.toNat w h, sp := s.sp + 1 }

/-- The pop of RET (R111), SP - 1 being a slot: `SP <- SP - 1; PC <- stack[SP]`. The slot keeps its value (R28). -/
def State.popPc (s : State) (h : (s.sp - 1).toNat < 16) : State :=
  { s with sp := s.sp - 1, pc := s.stack[(s.sp - 1).toNat] }

/-! ### Free values (R13, R181) -/

/-- `draw_byte()` (R13): the next free byte. -/
def State.nextByte (s : State) : Byte := Config.drawByte s.draws

/-- The choice among `len` things of the next draw (R181). -/
def State.nextChoice (s : State) (len : Nat) : Nat := Config.drawKey s.draws % len

/-! ### The step cycle's own parts -/

/-- The stop test (R93). -/
def stopTest (s : State) : Bool :=
  match s.params.stopCmp with
  | .ge => decide (s.pc.toNat ≥ 0x200 + s.romLen)
  | .gt => decide (s.pc.toNat > 0x200 + s.romLen)

/-- The address of the fetch's second byte (R94): PC + 1, mod 4096 when ADDR_WRAP = mod4096. -/
def secondByteAddr (s : State) : Nat :=
  blockAddr s.params s.pc 1

/-- `Fetch16(PC)` (R94): the word, or the BoundsFault of the first byte, then of the second. -/
def fetch16 (s : State) : Except FaultCause Word :=
  if s.pc.toNat > 0xFFF then .error (.fetch s.pc.toNat)
  else if secondByteAddr s > 0xFFF then .error (.fetch (secondByteAddr s))
  else .ok (wordOfBytes (s.mem.read s.pc.toNat) (s.mem.read (secondByteAddr s)))

/-- One timer, decremented by one and floored at zero (R211). -/
def countDown (t : Byte) : Byte := if t = 0#8 then 0#8 else t - 1

/-- The timer tick (R211). -/
def timerTick (s : State) : State :=
  (s.setDt (countDown s.dt)).setSt (countDown s.st)

/-- The end of a step whose handler left the state `s` (R95, R212): the tick runs when the instruction completed, and not when
the handler raised a fault. -/
def endOfStep (s : State) : State :=
  match s.run with
  | .running => timerTick s
  | .stopped => s
  | .faulted _ => s

/-- The group-0 no-op of SYS_MODE = nop (R85): `PC <- PC + 2` and nothing else. -/
def execSysNop (s : State) : State := s.advance

/-- The word placed where the next step fetches it: its two bytes at PC and at the second byte's address, the core running
and the recorded ROM length reaching past the instruction so that the stop test does not hold (R93, R94; log 3). Where no two
bytes can be fetched at PC, there is no place for it (log 37). -/
def placeWord (s : State) (w : Word) : State :=
  if s.pc.toNat ≤ 0xFFF ∧ secondByteAddr s ≤ 0xFFF then
    { s with
      mem := (s.mem.write s.pc.toNat (highByte w)).write (secondByteAddr s) (lowByte w)
      romLen := max s.romLen (min (s.pc.toNat + 2 - 0x200) 3584)
      run := .running }
  else s

end Sys2Proof.Machine
end

