-- ==== Sys2Proof/Machine/Flags.lean ====
section
/-! DEFINITION. The flags the instructions write to VF (10_state.md R22; 42_group_6_7_8.md R142; 44_group_D.md R163), each 0 or 1. -/

namespace Sys2Proof.Machine

/-- A condition as the byte 1 or 0. -/
def flagOf (c : Bool) : Byte := if c then 1#8 else 0#8

/-- The carry of ADD Vx, Vy (R137): 1 when the unbounded sum exceeds 255. -/
def carryFlag (a b : Byte) : Byte := flagOf (decide (a.toNat + b.toNat > 255))

/-- The no-borrow of `a - b` (R138, R140): 1 when a >= b, so that equal operands give 1 (decision D33, log 29). -/
def noBorrowFlag (a b : Byte) : Byte := flagOf (decide (a.toNat ≥ b.toNat))

/-- The bit SHR shifts out (R139): `a & 1`. -/
def lowBitFlag (a : Byte) : Byte := flagOf (decide (a.toNat % 2 = 1))

/-- The bit SHL shifts out (R141): `(a >> 7) & 1`. -/
def highBitFlag (a : Byte) : Byte := flagOf (decide (a.toNat / 128 = 1))

end Sys2Proof.Machine
end

