-- ==== Sys2Proof/Machine/Operands.lean ====
section
/-! DEFINITION. The operand forms of 30_encoding.md R82 and the two shapes of group 8: a plain result, and a result with a flag
(42_group_6_7_8.md R132). -/

namespace Sys2Proof.Machine

/-- `zext_16(nnn)` (R82). -/
def addrWord (nnn : Addr) : Word := nnn.setWidth 16

/-- `zext_16(b)` (R82). -/
def byteWord (b : Byte) : Word := b.setWidth 16

/-- `V[x] <- b; PC <- PC + 2`: the shape of every instruction that only writes a register. VF is written only as x = F. -/
def writeReg (x : Reg) (b : Byte) (s : State) : Out :=
  .next (s.setV x b).advance

/-- The five flag instructions of group 8 (R132): the flag from the operands as the handler finds them, VF written first, the
result from the same operands (snapshot) or from the registers read again (reread), V[x] written second. -/
def writeFlagAndReg (x y : Reg) (flag result : Byte → Byte → Byte) (s : State) : State :=
  let a := s.getV x
  let b := s.getV y
  let s1 := s.setV vf (flag a b)
  match s.params.aluVfRead with
  | .snapshot => s1.setV x (result a b)
  | .reread => s1.setV x (result (s1.getV x) (s1.getV y))

/-- A flag instruction of group 8, whole: R132, then `PC <- PC + 2`. -/
def flagAlu (x y : Reg) (flag result : Byte → Byte → Byte) (s : State) : Out :=
  .next (writeFlagAndReg x y flag result s).advance

/-- `V[0..x]`, the block of registers Fx55 stores (R187). -/
def regBlock (s : State) (x : Reg) : List Byte :=
  s.v.toList.take (x.toNat + 1)

/-- `V[k] <- vals[k]` for the values from register k on (R188). -/
def writeRegs : State → Nat → List Byte → State
  | s, _, [] => s
  | s, k, b :: bs => writeRegs (s.setV (BitVec.ofNat 4 k) b) (k + 1) bs

/-- Whether the key numbered k is pressed (R34); there is no key above 15. -/
def State.keyDown (s : State) (k : Nat) : Bool :=
  if h : k < 16 then s.key[k] else false

/-- The pressed keys, lowest first: the set P of R181. -/
def State.pressedKeys (s : State) : List Nat :=
  (List.range 16).filter s.keyDown

/-- A skip on the key numbered V[x] (R170 to R172): the index is checked before anything is written. -/
def skipOnKey (x : Reg) (pressed : Bool) (s : State) : Out :=
  guarded (if (s.getV x).toNat > 15 then some (.keyIndex (s.getV x)) else none) s
    (s.skipIf (s.keyDown (s.getV x).toNat == pressed))

end Sys2Proof.Machine
end

