-- ==== Sys2Proof/Machine/Alu.lean ====
section
/-! DEFINITION. Groups 6, 7 and 8 (42_group_6_7_8.md). All arithmetic is unsigned and mod 256 (R142), which is BitVec 8 arithmetic.
LD, OR, AND, XOR and the immediate ADD write VF only as their destination (decision D7, log 24). -/

namespace Sys2Proof.Machine

/-- LD Vx, byte (R130). -/
def execLdImm (x : Reg) (kk : Byte) (s : State) : Out :=
  writeReg x kk s

/-- ADD Vx, byte (R131): no carry flag. -/
def execAddImm (x : Reg) (kk : Byte) (s : State) : Out :=
  writeReg x (s.getV x + kk) s

/-- LD Vx, Vy (R133). -/
def execLdReg (x y : Reg) (s : State) : Out :=
  writeReg x (s.getV y) s

/-- OR Vx, Vy (R134). -/
def execOrReg (x y : Reg) (s : State) : Out :=
  writeReg x (s.getV x ||| s.getV y) s

/-- AND Vx, Vy (R135). -/
def execAndReg (x y : Reg) (s : State) : Out :=
  writeReg x (s.getV x &&& s.getV y) s

/-- XOR Vx, Vy (R136). -/
def execXorReg (x y : Reg) (s : State) : Out :=
  writeReg x (s.getV x ^^^ s.getV y) s

/-- ADD Vx, Vy (R137): carry to VF. -/
def execAddReg (x y : Reg) (s : State) : Out :=
  flagAlu x y carryFlag (fun a b => a + b) s

/-- SUB Vx, Vy (R138): no-borrow to VF. -/
def execSubReg (x y : Reg) (s : State) : Out :=
  flagAlu x y noBorrowFlag (fun a b => a - b) s

/-- SHR Vx, Vy (R139): the source is Vx; Vy has no effect (conflict C10, log 30). -/
def execShr (x y : Reg) (s : State) : Out :=
  flagAlu x y (fun a _ => lowBitFlag a) (fun a _ => a >>> 1) s

/-- SUBN Vx, Vy (R140): Vy - Vx, no-borrow to VF. -/
def execSubn (x y : Reg) (s : State) : Out :=
  flagAlu x y (fun a b => noBorrowFlag b a) (fun a b => b - a) s

/-- SHL Vx, Vy (R141): the source is Vx; Vy has no effect (conflict C10, log 30). -/
def execShl (x y : Reg) (s : State) : Out :=
  flagAlu x y (fun a _ => highBitFlag a) (fun a _ => a <<< 1) s

/-- RND Vx, byte (R152): a free byte, masked. -/
def execRnd (x : Reg) (kk : Byte) (s : State) : Out :=
  writeReg x (s.nextByte &&& kk) s.countDraw

end Sys2Proof.Machine
end

