-- ==== Sys2Proof/Machine/Control.lean ====
section
/-! DEFINITION. Groups 0, 1 and 2 (40_group_0_1_2.md): CLS, RET, JP addr, CALL addr; and JP V0, addr of group B
(43_group_A_B_C.md R151). -/

namespace Sys2Proof.Machine

/-- A display with every pixel 0 (R110). -/
def blankDisplay : Display := Vector.replicate 32 (Vector.replicate 64 false)

/-- CLS (R110). The redraw flag is set whether or not a pixel changes (conflict C6, log 28). -/
def execCls (s : State) : Out :=
  .next ((s.setDisp blankDisplay).setRedraw true).advance

/-- RET (R111). A stack pointer above 16 is no state of R27 (log 10). -/
def execRet (s : State) : Out :=
  if s.sp = 0#8 then raise (.stackUnderflow s.sp) s
  else if h : (s.sp - 1).toNat < 16 then .next (s.popPc h)
  else .fault (.stackPointer s.sp)

/-- JP addr (R112). -/
def execJp (nnn : Addr) (s : State) : Out :=
  .next (s.setPc (addrWord nnn))

/-- CALL addr (R113): a full stack is a fault (conflict C4, log 27). A stack pointer above 16 is no state of R27 (log 10). -/
def execCall (nnn : Addr) (s : State) : Out :=
  if s.sp = 16#8 then raise (.stackOverflow s.sp) s
  else if h : s.sp.toNat < 16 then .next ((s.push (s.pc + 2) h).setPc (addrWord nnn))
  else .fault (.stackPointer s.sp)

/-- JP V0, addr (R151): the sum is kept as it is, or taken mod 4096 with ADDR_WRAP = mod4096. The register is V0 whatever
nnn holds. -/
def execJpV0 (nnn : Addr) (s : State) : Out :=
  .next (s.setPc (BitVec.ofNat 16 (wrapAddr s.params (nnn.toNat + (s.getV 0#4).toNat))))

end Sys2Proof.Machine
end

