-- ==== Sys2Proof/Machine/Draw.lean ====
section
/-! DEFINITION. Group D (44_group_D.md): DRW Vx, Vy, nibble. The bit order within a sprite byte and the axes are PRESUMED, the CHIP-8
convention, as the spec marks them (R161, log 18), unsafe. -/

namespace Sys2Proof.Machine

/-- `disp[r][c]` (R32). -/
def pixel (d : Display) (r : Fin 32) (c : Fin 64) : Bool :=
  d[r.val][c.val]

/-- `disp[r][c] <- disp[r][c] ^ 1` (R160). -/
def togglePixel (d : Display) (r : Fin 32) (c : Fin 64) : Display :=
  d.set r.val (d[r.val].set c.val (!pixel d r c))

/-- `place(x0, y0, k, b)` of R162: the pixel of sprite row k and bit offset b, none where it is not visible. -/
def place (e : DrawEdge) (x0 y0 : Byte) (k b : Nat) : Option (Fin 32 × Fin 64) :=
  match e with
  | .wrap => some (⟨(y0.toNat + k) % 32, Nat.mod_lt _ (by decide)⟩, ⟨(x0.toNat + b) % 64, Nat.mod_lt _ (by decide)⟩)
  | .clip =>
    if h : y0.toNat % 32 + k < 32 ∧ x0.toNat % 64 + b < 64 then
      some (⟨y0.toNat % 32 + k, h.1⟩, ⟨x0.toNat % 64 + b, h.2⟩)
    else none

/-- Bit offset b of a sprite row: bit 7 is offset 0, the leftmost pixel (R161). -/
def spriteBit (row : Byte) (b : Nat) : Bool :=
  row.getLsbD (7 - b)

/-- What the drawing loop carries: the display and `collide` (R160). -/
abbrev Canvas := Display × Bool

/-- One pixel of the loop of R160: a 1 bit toggles its visible pixel, and collides where that pixel was 1 (R163). -/
def drawBit (e : DrawEdge) (x0 y0 : Byte) (k : Nat) (row : Byte) (cv : Canvas) (b : Nat) : Canvas :=
  if spriteBit row b then
    match place e x0 y0 k b with
    | some (r, c) => (togglePixel cv.1 r c, cv.2 || pixel cv.1 r c)
    | none => cv
  else cv

/-- One row of the loop of R160. -/
def drawRow (e : DrawEdge) (x0 y0 : Byte) (k : Nat) (row : Byte) (cv : Canvas) : Canvas :=
  (List.range 8).foldl (drawBit e x0 y0 k row) cv

/-- The loop of R160 over the rows from row k on. -/
def drawRows (e : DrawEdge) (x0 y0 : Byte) : Nat → List Byte → Canvas → Canvas
  | _, [], cv => cv
  | k, row :: rows, cv => drawRows e x0 y0 (k + 1) rows (drawRow e x0 y0 k row cv)

/-- The display and the collision flag after the sprite of n rows at I is drawn at (Vx, Vy) (R160). -/
def drawSprite (x y : Reg) (n : Nibble) (s : State) : Canvas :=
  drawRows s.params.drawEdge (s.getV x) (s.getV y) 0 (loadBlock s n.toNat) (s.disp, false)

/-- The writes of DRW (R160): the pixels, VF, the redraw flag. -/
def drawEffect (x y : Reg) (n : Nibble) (s : State) : State :=
  (((s.setDisp (drawSprite x y n s).1).setV vf (flagOf (drawSprite x y n s).2)).setRedraw true).advance

/-- DRW Vx, Vy, nibble (R160): exactly n bytes are read (conflict C3, log 40), all checked before any write. -/
def execDrw (x y : Reg) (n : Nibble) (s : State) : Out :=
  guarded (readOffence s n.toNat) s (drawEffect x y n s)

end Sys2Proof.Machine
end

