-- ==== Sys2Proof/Machine/Index.lean ====
section
/-! DEFINITION. The instructions on I and the block memory instructions: LD I, addr (43_group_A_B_C.md R150) and Fx1E, Fx29, Fx33,
Fx55, Fx65 (46_group_F.md R184 to R188). None of the block instructions changes I (decision D13, log 25). -/

namespace Sys2Proof.Machine

/-- LD I, addr (R150). -/
def execLdI (nnn : Addr) (s : State) : Out :=
  .next (s.setI (addrWord nnn)).advance

/-- ADD I, Vx (R184): mod 2^16, no flag (decision D14, logs 24 and 26). -/
def execAddIVx (x : Reg) (s : State) : Out :=
  .next (s.setI (s.i + byteWord (s.getV x))).advance

/-- LD F, Vx (R185): the whole value of Vx times 5. -/
def execLdFVx (x : Reg) (s : State) : Out :=
  .next (s.setI (byteWord (s.getV x) * 5)).advance

/-- The hundreds, tens and ones of a byte (R186). -/
def bcdBytes (b : Byte) : List Byte :=
  [b / 100, b / 10 % 10, b % 10]

/-- LD B, Vx (R186): the three addresses are checked before any write. -/
def execLdBVx (x : Reg) (s : State) : Out :=
  guarded (writeOffence s 3) s (storeBlock s (bcdBytes (s.getV x))).advance

/-- LD [I], Vx (R187): V0..Vx, the whole block checked before any write. -/
def execLdMemVx (x : Reg) (s : State) : Out :=
  guarded (writeOffence s (x.toNat + 1)) s (storeBlock s (regBlock s x)).advance

/-- LD Vx, [I] (R188): the whole block checked and read before any register is written. -/
def execLdVxMem (x : Reg) (s : State) : Out :=
  guarded (readOffence s (x.toNat + 1)) s (writeRegs s 0 (loadBlock s (x.toNat + 1))).advance

end Sys2Proof.Machine
end

