-- ==== Sys2Proof/Machine/Skip.lean ====
section
/-! DEFINITION. Groups 3, 4, 5 and 9 (41_group_3_4_5_9.md): the compare-and-skip instructions, whose skip is that of R124, and the
key skips of group E (45_group_E.md). -/

namespace Sys2Proof.Machine

/-- SE Vx, byte (R120). -/
def execSeImm (x : Reg) (kk : Byte) (s : State) : Out :=
  .next (s.skipIf (s.getV x == kk))

/-- SNE Vx, byte (R121). -/
def execSneImm (x : Reg) (kk : Byte) (s : State) : Out :=
  .next (s.skipIf (s.getV x != kk))

/-- SE Vx, Vy (R122). -/
def execSeReg (x y : Reg) (s : State) : Out :=
  .next (s.skipIf (s.getV x == s.getV y))

/-- SNE Vx, Vy (R123). -/
def execSneReg (x y : Reg) (s : State) : Out :=
  .next (s.skipIf (s.getV x != s.getV y))

/-- SKP Vx (R170). -/
def execSkp (x : Reg) (s : State) : Out :=
  skipOnKey x true s

/-- SKNP Vx (R171). -/
def execSknp (x : Reg) (s : State) : Out :=
  skipOnKey x false s

end Sys2Proof.Machine
end

