-- ==== Sys2Proof/Machine/Timers.lean ====
section
/-! DEFINITION. The timer instructions and the key wait of group F (46_group_F.md R180 to R183). The timer tick of the same step
comes after the handler (60_exceptions.md R211). -/

namespace Sys2Proof.Machine

/-- LD Vx, DT (R180): DT before this step's tick. -/
def execLdVxDt (x : Reg) (s : State) : Out :=
  writeReg x s.dt s

/-- LD DT, Vx (R182). -/
def execLdDtVx (x : Reg) (s : State) : Out :=
  .next (s.setDt (s.getV x)).advance

/-- LD ST, Vx (R183). -/
def execLdStVx (x : Reg) (s : State) : Out :=
  .next (s.setSt (s.getV x)).advance

/-- Which of the pressed keys k :: ks Fx0A records (R181): the lowest, or any one of them by a draw. -/
def chooseKey (s : State) (k : Nat) (ks : List Nat) : Nat :=
  match s.params.keySelect with
  | .lowest => k
  | .any => (k :: ks).getD (s.nextChoice (ks.length + 1)) k

/-- The choice of R181 takes a draw only with KEY_SELECT = any. -/
def countKeyDraw (s : State) : State :=
  match s.params.keySelect with
  | .lowest => s
  | .any => s.countDraw

/-- LD Vx, K (R181): with no key pressed a stall, which writes nothing; else the index of a pressed key. The wait is
level-triggered (conflict C2, log 21). -/
def execLdVxK (x : Reg) (s : State) : Out :=
  match s.pressedKeys with
  | [] => .next s
  | k :: ks => writeReg x (BitVec.ofNat 8 (chooseKey s k ks)) (countKeyDraw s)

end Sys2Proof.Machine
end

