-- ==== Sys2Proof/Machine/Cycle.lean ====
section
/-! DEFINITION. The step cycle of 30_encoding.md R95, which Sys2Proof/Machine/Step.lean calls. -/

namespace Sys2Proof.Machine

/-- The end of a step after its handler (R95): the tick, where the handler completed. -/
def finishStep : Out → Out
  | .next s => .next (endOfStep s)
  | .fault r => .fault r
  | .refused r => .refused r

/-- The verdict of the decoder carried out (R85, R95, R201), the fetched word being in `opcode` already. -/
def runDecoded (d : Decoded) (s : State) : Out :=
  match d with
  | .instr i => finishStep (exec i s)
  | .sysNop => finishStep (.next (execSysNop s))
  | .illegal _ => raise .decode s

/-- The step of a Running core (R95): the stop test, the fetch, the decode, the handler, the tick. -/
def runningStep (s : State) : Out :=
  if stopTest s then .next (s.setRun .stopped)
  else
    match fetch16 s with
    | .error c => raise c s
    | .ok w => runDecoded (decodeWord s.params w) (s.setOpcode w)

/-- One step (R95): a Stopped or Faulted core changes nothing (R96). -/
def cycle (s : State) : Out :=
  match s.run with
  | .running => runningStep s
  | .stopped => .next s
  | .faulted _ => .next s

end Sys2Proof.Machine
end

