-- ==== Sys2Proof/Machine/Step.lean ====
section
/-! DEFINITION. One step of the machine, and a word placed where it fetches. -/

namespace Sys2Proof.Machine

/-- `step()` (30_encoding.md R95). -/
def step (s : State) : Host.Outcome State Fault Refusal :=
  cycle s

/-- The state with an instruction of `nbits` table bits and value `w` where the next step fetches it, the core running and
the recorded ROM length covering it (log 3). Where no two bytes can be fetched at PC the state is unchanged (log 37). -/
def State.withFetchWord (s : State) (nbits w : Nat) : State :=
  placeWord s (tableWord nbits w)

end Sys2Proof.Machine
end

