-- ==== Sys2Proof/WellFormed.lean ====
section
/-! DEFINITION. What is well formed: an instruction word (30_encoding.md R91, R97, R100), a ROM image
(70_reset_and_hazards.md R241) and a key number of the host (60_exceptions.md R217). A term of Instr needs no check of its
own: its fields have exactly the widths of the encoding's fields (R81), and every value of a field is legal (R82, R90).

The opcode map is written out here as the spec's table of masks and matches, apart from the decoder of
Sys2Proof/Decode.lean, so that the two can be compared. -/

namespace Sys2Proof

/-- One line of the opcode map of R100: a word `op` is the row's instruction when `op &&& mask = bits`. -/
structure OpcodeRow where
  mnemonic : String
  mask     : Word
  bits     : Word
  deriving DecidableEq, Repr

/-- `op & mask = match` of R100. -/
def OpcodeRow.matchesWord (r : OpcodeRow) (op : Word) : Bool :=
  op &&& r.mask == r.bits

/-- The mask of the rows 5xy0 and 9xy0: 0xF00F, or 0xF000 when LOOSE_5_9 = true (R89, R100). -/
def maskOf59 (p : Params) : Word :=
  if p.loose59 then 0xF000#16 else 0xF00F#16

/-- The rows of groups 0 to 7 of R100. -/
def opcodeRowsLow (p : Params) : List OpcodeRow :=
  [⟨"CLS", 0xFFFF#16, 0x00E0#16⟩, ⟨"RET", 0xFFFF#16, 0x00EE#16⟩, ⟨"JP_addr", 0xF000#16, 0x1000#16⟩,
   ⟨"CALL_addr", 0xF000#16, 0x2000#16⟩, ⟨"SE_Vx__byte", 0xF000#16, 0x3000#16⟩, ⟨"SNE_Vx__byte", 0xF000#16, 0x4000#16⟩,
   ⟨"SE_Vx__Vy", maskOf59 p, 0x5000#16⟩, ⟨"LD_Vx__byte", 0xF000#16, 0x6000#16⟩, ⟨"ADD_Vx__byte", 0xF000#16, 0x7000#16⟩]

/-- The rows of group 8 of R100. -/
def opcodeRows8 : List OpcodeRow :=
  [⟨"LD_Vx__Vy", 0xF00F#16, 0x8000#16⟩, ⟨"OR_Vx__Vy", 0xF00F#16, 0x8001#16⟩, ⟨"AND_Vx__Vy", 0xF00F#16, 0x8002#16⟩,
   ⟨"XOR_Vx__Vy", 0xF00F#16, 0x8003#16⟩, ⟨"ADD_Vx__Vy", 0xF00F#16, 0x8004#16⟩, ⟨"SUB_Vx__Vy", 0xF00F#16, 0x8005#16⟩,
   ⟨"SHR_Vx__Vy", 0xF00F#16, 0x8006#16⟩, ⟨"SUBN_Vx__Vy", 0xF00F#16, 0x8007#16⟩, ⟨"SHL_Vx__Vy", 0xF00F#16, 0x800E#16⟩]

/-- The rows of groups 9 to D of R100. -/
def opcodeRowsHigh (p : Params) : List OpcodeRow :=
  [⟨"SNE_Vx__Vy", maskOf59 p, 0x9000#16⟩, ⟨"LD_I__addr", 0xF000#16, 0xA000#16⟩, ⟨"JP_V0__addr", 0xF000#16, 0xB000#16⟩,
   ⟨"RND_Vx__byte", 0xF000#16, 0xC000#16⟩, ⟨"DRW_Vx__Vy__nibble", 0xF000#16, 0xD000#16⟩]

/-- The rows of groups E and F of R100. -/
def opcodeRowsEF : List OpcodeRow :=
  [⟨"SKP_Vx", 0xF0FF#16, 0xE09E#16⟩, ⟨"SKNP_Vx", 0xF0FF#16, 0xE0A1#16⟩, ⟨"LD_Vx__DT", 0xF0FF#16, 0xF007#16⟩,
   ⟨"LD_Vx__K", 0xF0FF#16, 0xF00A#16⟩, ⟨"LD_DT__Vx", 0xF0FF#16, 0xF015#16⟩, ⟨"LD_ST__Vx", 0xF0FF#16, 0xF018#16⟩,
   ⟨"ADD_I__Vx", 0xF0FF#16, 0xF01E#16⟩, ⟨"LD_F__Vx", 0xF0FF#16, 0xF029#16⟩, ⟨"LD_B__Vx", 0xF0FF#16, 0xF033#16⟩,
   ⟨"LD__I___Vx", 0xF0FF#16, 0xF055#16⟩, ⟨"LD_Vx___I", 0xF0FF#16, 0xF065#16⟩]

/-- The opcode map of R100, 34 rows. -/
def opcodeTable (p : Params) : List OpcodeRow :=
  opcodeRowsLow p ++ opcodeRows8 ++ opcodeRowsHigh p ++ opcodeRowsEF

/-- The mnemonic of an instruction, as spec/opcode_table.json spells it. -/
def Instr.mnemonic : Instr → String
  | .cls => "CLS"
  | .ret => "RET"
  | .jp _ => "JP_addr"
  | .call _ => "CALL_addr"
  | .seImm _ _ => "SE_Vx__byte"
  | .sneImm _ _ => "SNE_Vx__byte"
  | .seReg _ _ => "SE_Vx__Vy"
  | .ldImm _ _ => "LD_Vx__byte"
  | .addImm _ _ => "ADD_Vx__byte"
  | .ldReg _ _ => "LD_Vx__Vy"
  | .orReg _ _ => "OR_Vx__Vy"
  | .andReg _ _ => "AND_Vx__Vy"
  | .xorReg _ _ => "XOR_Vx__Vy"
  | .addReg _ _ => "ADD_Vx__Vy"
  | .subReg _ _ => "SUB_Vx__Vy"
  | .shr _ _ => "SHR_Vx__Vy"
  | .subn _ _ => "SUBN_Vx__Vy"
  | .shl _ _ => "SHL_Vx__Vy"
  | .sneReg _ _ => "SNE_Vx__Vy"
  | .ldI _ => "LD_I__addr"
  | .jpV0 _ => "JP_V0__addr"
  | .rnd _ _ => "RND_Vx__byte"
  | .drw _ _ _ => "DRW_Vx__Vy__nibble"
  | .skp _ => "SKP_Vx"
  | .sknp _ => "SKNP_Vx"
  | .ldVxDt _ => "LD_Vx__DT"
  | .ldVxK _ => "LD_Vx__K"
  | .ldDtVx _ => "LD_DT__Vx"
  | .ldStVx _ => "LD_ST__Vx"
  | .addIVx _ => "ADD_I__Vx"
  | .ldFVx _ => "LD_F__Vx"
  | .ldBVx _ => "LD_B__Vx"
  | .ldMemVx _ => "LD__I___Vx"
  | .ldVxMem _ => "LD_Vx___I"

/-- A word is well formed when it matches a row of the opcode map, or is a group-0 word that SYS_MODE = nop makes a no-op
(R85). The words that are not are the illegal space of R91. -/
def wellFormedWord (p : Params) (op : Word) : Bool :=
  (opcodeTable p).any (·.matchesWord op) || (p.sysMode == .nop && op &&& 0xF000#16 == 0x0000#16)

/-- A ROM image has 0 to 3584 bytes (R241). -/
def wellFormedRom (rom : List Byte) : Bool :=
  rom.length ≤ 3584

/-- A key number of a host action is 0x0..0xF (R217). -/
def wellFormedKey (k : Nat) : Bool :=
  k < 16

end Sys2Proof
end

