-- ==== Sys2Proof/Machine/HostInterface.lean ====
section
/-! DEFINITION. What the host can do to the core (60_exceptions.md R215 to R223; 70_reset_and_hazards.md R240, R241): transitions beside
the step, each between two steps (R218). -/

namespace Sys2Proof.Machine

/-- `initialize(rom_bytes)` (R240), at the parameters and the font given: ConfigFault on a ROM longer than 3584 bytes, which
leaves no state (R241), else the state of R41 and R42. -/
def initCore (p : Params) (font : FontTable) (rom : List Byte) : Out :=
  if wellFormedRom rom then
    .next
      { State.reset with
        mem := loadBytes { font := font, cells := [] } 0x200 rom
        romLen := rom.length
        params := p }
  else .fault (.romTooLong rom.length)

/-- The kind of a fault that `initialize` raises (R200, R204); a stack pointer out of range is no fault of the spec. -/
def Fault.kind : Fault → Option FaultKind
  | .romTooLong _ => some .configFault
  | .stackPointer _ => none

/-- `consume_redraw()` (R216): the flag's value, and the state with the flag cleared. -/
def consumeRedraw (s : State) : Bool × State :=
  (s.redraw, s.setRedraw false)

/-- `set_key(k, pressed)` (R217): a key number above 15 is refused by the host interface. -/
def setKey (k : Nat) (pressed : Bool) (s : State) : Out :=
  if h : k < 16 then .next { s with key := s.key.set k pressed }
  else .refused (.keyNumber k)

/-- The display the host reads (R215). -/
def readDisplay (s : State) : Display := s.disp

/-- The run state the host reads (R219). -/
def readRun (s : State) : RunState := s.run

/-- The fault of a Faulted core, as the host has it (R205, R219). -/
def RunState.fault? : RunState → Option FaultRecord
  | .running => none
  | .stopped => none
  | .faulted f => some f

/-- What `step()` hands back to the host (R205, R223): nothing, or the fault this step raised. -/
def stepResult (s : State) : Option FaultRecord :=
  match s.run, step s with
  | .running, .next t => t.run.fault?
  | _, _ => none

/-- A transition of the core with its host (R218): a step, or a host action that changes the state. -/
inductive Event where
  | step
  | consumeRedraw
  | setKey (k : Nat) (pressed : Bool)
  deriving DecidableEq, Repr

/-- The transition of an event. -/
def onEvent (e : Event) (s : State) : Out :=
  match e with
  | .step => step s
  | .consumeRedraw => .next (consumeRedraw s).2
  | .setKey k b => setKey k b s

/-- A run of steps and host actions in the order given (R218): which host actions come between two steps is free. -/
def runEvents : List Event → State → Out
  | [], s => .next s
  | e :: es, s =>
    match onEvent e s with
    | .next t => runEvents es t
    | .fault r => .fault r
    | .refused r => .refused r

end Sys2Proof.Machine
end

