-- ==== Sys2Proof/Safety.lean ====
section
/-! DEFINITION. The terms the claims are stated in: how a run ends (70_reset_and_hazards.md R247), the invariants of the machine
(10_state.md R26, R44), and what an instruction leaves unchanged. -/

namespace Sys2Proof.Machine

/-- A run ends well when the core has stopped (R247). -/
def EndsWell (s : State) : Prop := s.run = .stopped

/-- A run ends in error when the core has faulted (R247). -/
def EndsInError (s : State) : Prop := ∃ f, s.run = .faulted f

/-- The invariant of R44, where the types do not say it already, with the canonical form of memory. -/
structure Inv (s : State) : Prop where
  /-- Memory keeps its canonical form. -/
  memWf : s.mem.wf = true
  /-- 0 <= SP <= 16. -/
  spRange : s.sp.toNat ≤ 16
  /-- rom_len <= 3584. -/
  romLenRange : s.romLen ≤ 3584
  /-- Memory below START equals its value after `initialize` when PROTECT_RESERVED = true. -/
  reserved : s.params.protectReserved = true → ∀ a, a < 0x200 → s.mem.read a = s.mem.unlisted a

/-- What keeps PC from ever wrapping (R26, R113, R151): PC is at most 0x10FE, and the return addresses on the stack are at most
0x1001. -/
structure PcInv (s : State) : Prop where
  pcBound : s.pc.toNat ≤ 0x10FE
  returnBound : ∀ (j : Nat) (h : j < 16), j < s.sp.toNat → s.stack[j].toNat ≤ 0x1001

/-- The parts of the state, beside the V registers, that some instruction's handler writes. PC is not one of them: every
handler may write it. -/
inductive Part where
  | i
  | stack
  | dt
  | st
  | screen
  | memory
  | draws
  deriving DecidableEq, Repr

/-- From s to t nothing has changed but PC, the registers `regs` and the parts `parts`. The components no handler writes are
always among what has not changed: the keys, the opcode register, the ROM length, the run state, the parameters and the font. -/
structure UnchangedBut (regs : List Reg) (parts : List Part) (s t : State) : Prop where
  regs : ∀ r, r ∉ regs → t.getV r = s.getV r
  index : Part.i ∉ parts → t.i = s.i
  stack : Part.stack ∉ parts → t.sp = s.sp ∧ t.stack = s.stack
  delay : Part.dt ∉ parts → t.dt = s.dt
  sound : Part.st ∉ parts → t.st = s.st
  screen : Part.screen ∉ parts → t.disp = s.disp ∧ t.redraw = s.redraw
  memory : Part.memory ∉ parts → ∀ a, t.mem.read a = s.mem.read a
  draws : Part.draws ∉ parts → t.draws = s.draws
  key : t.key = s.key
  opcode : t.opcode = s.opcode
  romLen : t.romLen = s.romLen
  run : t.run = s.run
  params : t.params = s.params
  font : t.mem.font = s.mem.font

/-- The V registers an instruction names as destinations or writes as a flag (R22, R40). -/
def destRegs : Instr → List Reg
  | .cls => []
  | .ret => []
  | .jp _ => []
  | .call _ => []
  | .seImm _ _ => []
  | .sneImm _ _ => []
  | .seReg _ _ => []
  | .ldImm x _ => [x]
  | .addImm x _ => [x]
  | .ldReg x _ => [x]
  | .orReg x _ => [x]
  | .andReg x _ => [x]
  | .xorReg x _ => [x]
  | .addReg x _ => [x, vf]
  | .subReg x _ => [x, vf]
  | .shr x _ => [x, vf]
  | .subn x _ => [x, vf]
  | .shl x _ => [x, vf]
  | .sneReg _ _ => []
  | .ldI _ => []
  | .jpV0 _ => []
  | .rnd x _ => [x]
  | .drw _ _ _ => [vf]
  | .skp _ => []
  | .sknp _ => []
  | .ldVxDt x => [x]
  | .ldVxK x => [x]
  | .ldDtVx _ => []
  | .ldStVx _ => []
  | .addIVx _ => []
  | .ldFVx _ => []
  | .ldBVx _ => []
  | .ldMemVx _ => []
  | .ldVxMem x => (List.range (x.toNat + 1)).map (BitVec.ofNat 4)

/-- The other parts an instruction's handler writes (R40). -/
def destParts : Instr → List Part
  | .cls => [.screen]
  | .ret => [.stack]
  | .jp _ => []
  | .call _ => [.stack]
  | .seImm _ _ => []
  | .sneImm _ _ => []
  | .seReg _ _ => []
  | .ldImm _ _ => []
  | .addImm _ _ => []
  | .ldReg _ _ => []
  | .orReg _ _ => []
  | .andReg _ _ => []
  | .xorReg _ _ => []
  | .addReg _ _ => []
  | .subReg _ _ => []
  | .shr _ _ => []
  | .subn _ _ => []
  | .shl _ _ => []
  | .sneReg _ _ => []
  | .ldI _ => [.i]
  | .jpV0 _ => []
  | .rnd _ _ => [.draws]
  | .drw _ _ _ => [.screen]
  | .skp _ => []
  | .sknp _ => []
  | .ldVxDt _ => []
  | .ldVxK _ => [.draws]
  | .ldDtVx _ => [.dt]
  | .ldStVx _ => [.st]
  | .addIVx _ => [.i]
  | .ldFVx _ => [.i]
  | .ldBVx _ => [.memory]
  | .ldMemVx _ => [.memory]
  | .ldVxMem _ => []

/-- How many bytes an instruction's handler stores, at I and on (R69). -/
def storeLen : Instr → Nat
  | .cls => 0
  | .ret => 0
  | .jp _ => 0
  | .call _ => 0
  | .seImm _ _ => 0
  | .sneImm _ _ => 0
  | .seReg _ _ => 0
  | .ldImm _ _ => 0
  | .addImm _ _ => 0
  | .ldReg _ _ => 0
  | .orReg _ _ => 0
  | .andReg _ _ => 0
  | .xorReg _ _ => 0
  | .addReg _ _ => 0
  | .subReg _ _ => 0
  | .shr _ _ => 0
  | .subn _ _ => 0
  | .shl _ _ => 0
  | .sneReg _ _ => 0
  | .ldI _ => 0
  | .jpV0 _ => 0
  | .rnd _ _ => 0
  | .drw _ _ _ => 0
  | .skp _ => 0
  | .sknp _ => 0
  | .ldVxDt _ => 0
  | .ldVxK _ => 0
  | .ldDtVx _ => 0
  | .ldStVx _ => 0
  | .addIVx _ => 0
  | .ldFVx _ => 0
  | .ldBVx _ => 3
  | .ldMemVx x => x.toNat + 1
  | .ldVxMem _ => 0

/-- The block of `len` bytes at I can be read (R62, R64): every address is in memory. -/
def Readable (s : State) (len : Nat) : Prop :=
  ∀ k, k < len → blockAddr s.params s.i k ≤ 0xFFF

/-- The byte at `a` can be written by an instruction (R63). -/
def WritableAddr (p : Params) (a : Nat) : Prop :=
  a ≤ 0xFFF ∧ (p.protectReserved = true → 0x200 ≤ a)

/-- The block of `len` bytes at I can be written (R63, R64). -/
def Writable (s : State) (len : Nat) : Prop :=
  ∀ k, k < len → WritableAddr s.params (blockAddr s.params s.i k)

/-- The sprite bit of row k and offset b is 1 (R161): bit 7 - b of the byte at I + k. -/
def SpritePixelOn (s : State) (k b : Nat) : Prop :=
  (s.mem.read (blockAddr s.params s.i k)).toNat / 2 ^ (7 - b) % 2 = 1

/-- Sprite row k and offset b lands, visible, on the pixel at row r and column c (R162). -/
def LandsOn (e : DrawEdge) (x0 y0 : Byte) (k b : Nat) (r : Fin 32) (c : Fin 64) : Prop :=
  match e with
  | .wrap => r.val = (y0.toNat + k) % 32 ∧ c.val = (x0.toNat + b) % 64
  | .clip => r.val = y0.toNat % 32 + k ∧ c.val = x0.toNat % 64 + b

/-- A 1 bit of the sprite of n rows at I, drawn at (Vx, Vy), lands on the pixel at row r and column c. -/
def SpriteCovers (s : State) (x y : Reg) (n : Nibble) (r : Fin 32) (c : Fin 64) : Prop :=
  ∃ k b, k < n.toNat ∧ b < 8 ∧ SpritePixelOn s k b ∧ LandsOn s.params.drawEdge (s.getV x) (s.getV y) k b r c

/-- The number w, as a word, is the instruction i, whatever the parameters (R84 to R90, R100). -/
def EncodedAs (i : Instr) (w : Nat) : Prop :=
  ∀ p, decodeWord p (BitVec.ofNat 16 w) = .instr i

/-- The word the next step would run (R93, R94): the core is Running, the stop test does not hold, and the fetch gives it. -/
def Fetches (s : State) (w : Word) : Prop :=
  s.run = .running ∧ stopTest s = false ∧ fetch16 s = .ok w

/-- The next step would run this instruction (R95). -/
def Runs (s : State) (i : Instr) : Prop :=
  ∃ w, Fetches s w ∧ decodeWord s.params w = .instr i

/-- The next step completes and leaves the state t, Running (R212). -/
def Completes (s t : State) : Prop :=
  s.run = .running ∧ step s = .next t ∧ t.run = .running

/-- n completed steps lead from s to t, none of them an instruction of which `skip` holds. -/
def CompletesIn (skip : Instr → Prop) : Nat → State → State → Prop
  | 0, s, t => t = s
  | n + 1, s, t => ∃ m, Completes s m ∧ (∀ i, Runs s i → ¬ skip i) ∧ CompletesIn skip n m t

/-- What a program can see after a handler, apart from control flow (R45): the registers, I, PC, the stack, DT, the keys and
memory. -/
def programView : Out → Option (Vector Byte 16 × Word × Word × Byte × Vector Word 16 × Byte × Vector Bool 16 × Memory)
  | .next t => some (t.v, t.i, t.pc, t.sp, t.stack, t.dt, t.key, t.mem)
  | .fault _ => none
  | .refused _ => none

end Sys2Proof.Machine
end

