-- ==== Sys2Proof/Certificates/Slice0/Obligations.lean ====
section
/-! DEFINITION. The statements for the provers, from the numbered rules of spec/. Each docstring names the rules it rests on, and the
log entries of the choices it rests on. The vocabulary is in Sys2Proof/Safety.lean. -/

open Sys2Proof Sys2Proof.Machine

/-! ### Encoding (30_encoding.md) -/

/-- R84 to R90, R100: words written out from the opcode map, one or more of each group, decode to the instruction they stand for,
whatever the parameters. The sub-opcode values of groups 0, 5, 8, 9, E and F are PRESUMED (log 7). -/
def Obligations.OpcodeWordsDecode : Prop :=
  ∀ p, decodeWord p 0x00E0#16 = .instr .cls ∧ decodeWord p 0x00EE#16 = .instr .ret ∧
    decodeWord p 0x1FFF#16 = .instr (.jp 0xFFF#12) ∧ decodeWord p 0x2ABC#16 = .instr (.call 0xABC#12) ∧
    decodeWord p 0x3342#16 = .instr (.seImm 3#4 0x42#8) ∧ decodeWord p 0x4342#16 = .instr (.sneImm 3#4 0x42#8) ∧
    decodeWord p 0x5120#16 = .instr (.seReg 1#4 2#4) ∧ decodeWord p 0x6005#16 = .instr (.ldImm 0#4 0x05#8) ∧
    decodeWord p 0x7003#16 = .instr (.addImm 0#4 0x03#8) ∧ decodeWord p 0x8F14#16 = .instr (.addReg 15#4 1#4) ∧
    decodeWord p 0x812E#16 = .instr (.shl 1#4 2#4) ∧ decodeWord p 0x9120#16 = .instr (.sneReg 1#4 2#4) ∧
    decodeWord p 0xA123#16 = .instr (.ldI 0x123#12) ∧ decodeWord p 0xB1F0#16 = .instr (.jpV0 0x1F0#12) ∧
    decodeWord p 0xC30F#16 = .instr (.rnd 3#4 0x0F#8) ∧ decodeWord p 0xD125#16 = .instr (.drw 1#4 2#4 5#4) ∧
    decodeWord p 0xE39E#16 = .instr (.skp 3#4) ∧ decodeWord p 0xF50A#16 = .instr (.ldVxK 5#4) ∧
    decodeWord p 0xFA33#16 = .instr (.ldBVx 10#4) ∧ decodeWord p 0xFF65#16 = .instr (.ldVxMem 15#4)

/-- R80 to R90, R65: the bytes of an instruction, high byte first and followed by anything, decode to it and leave what follows,
whatever the parameters: no bit of an operand is dropped. -/
def Obligations.DecodeOfEncodeIsTheInstruction : Prop :=
  ∀ (p : Params) (i : Instr) (rest : List Byte), decodeBytes p (encodeBytes i ++ rest) = (.instr i, rest)

/-- R97: with LOOSE_5_9 = false each word has one meaning: a word that decodes to an instruction is that instruction's own
encoding, so two words never decode to one instruction. -/
def Obligations.EncodeOfDecodeIsTheWord : Prop :=
  ∀ (p : Params) (w : Word) (i : Instr), p.loose59 = false → decodeWord p w = .instr i → encode i = w

/-- R91, R97, R100: the decoder agrees with the masks and matches of the opcode map. A word that decodes to an instruction matches
exactly one row, the instruction's own; and the illegal words are exactly those that match no row and are not the group-0 words of
SYS_MODE = nop. -/
def Obligations.DecoderAgreesWithTheOpcodeMap : Prop :=
  ∀ (p : Params) (w : Word),
    (∀ i, decodeWord p w = .instr i → ((opcodeTable p).filter (·.matchesWord w)).map (·.mnemonic) = [i.mnemonic]) ∧
    ((∃ why, decodeWord p w = .illegal why) ↔ wellFormedWord p w = false)

/-- R85: every group-0 word but 00E0 and 00EE is illegal with SYS_MODE = fault and the no-op with SYS_MODE = nop (decision D4 of the
spec, log 11; the two words are PRESUMED, log 7). -/
def Obligations.GroupZeroWordsFollowSysMode : Prop :=
  ∀ (p : Params) (w : Word), w.toNat < 0x1000 → w.toNat ≠ 0x00E0 → w.toNat ≠ 0x00EE →
    (p.sysMode = .fault → decodeWord p w = .illegal .group0) ∧ (p.sysMode = .nop → decodeWord p w = .sysNop)

/-! ### The step cycle (30_encoding.md R93 to R96; 60_exceptions.md R201, R205, R211, R212) -/

/-- R95: when the core is Running, the stop test does not hold and the two bytes at PC, high byte first, decode to the instruction
i, the step is the handler of i, run with the word in `opcode`, and then the timer tick; with a fault raised by the handler there
is no tick: the fault is a next state as the handler left it (decision D20 of the spec, log 2). Where the model stops (SP above 16,
log 10) so does the step, and no handler refuses. -/
def Obligations.StepRunsTheDecodedInstruction : Prop :=
  ∀ (s : State) (w : Word) (i : Instr), s.run = .running → stopTest s = false → s.pc.toNat ≤ 0xFFF → secondByteAddr s ≤ 0xFFF →
    w = wordOfBytes (s.mem.read s.pc.toNat) (s.mem.read (secondByteAddr s)) → decodeWord s.params w = .instr i →
    (∀ u, exec i (s.setOpcode w) = .next u → u.run = .running → step s = .next (timerTick u)) ∧
    (∀ u f, exec i (s.setOpcode w) = .next u → u.run = .faulted f → step s = .next u) ∧
    (∀ r, exec i (s.setOpcode w) = .fault r → step s = .fault r) ∧
    (∀ r, exec i (s.setOpcode w) ≠ .refused r)

/-- R96: a step of a Stopped or Faulted core changes nothing. -/
def Obligations.StoppedOrFaultedStepChangesNothing : Prop :=
  ∀ s : State, (s.run = .stopped ∨ ∃ f, s.run = .faulted f) → step s = .next s

/-- R93: a Running core at or past the end of the ROM (past it, with STOP_CMP = gt) stops with nothing else written, and from no
other PC does a step end Stopped (decision D10 of the spec, log 14). -/
def Obligations.StopTestDecidesTheStop : Prop :=
  ∀ s : State, s.run = .running →
    (s.params.stopCmp = .ge → s.pc.toNat ≥ 0x200 + s.romLen → step s = .next { s with run := .stopped }) ∧
    (s.params.stopCmp = .gt → s.pc.toNat > 0x200 + s.romLen → step s = .next { s with run := .stopped }) ∧
    (s.params.stopCmp = .ge → s.pc.toNat < 0x200 + s.romLen → ∀ t, step s = .next t → t.run ≠ .stopped) ∧
    (s.params.stopCmp = .gt → s.pc.toNat ≤ 0x200 + s.romLen → ∀ t, step s = .next t → t.run ≠ .stopped)

/-- R94, R205: a fetch whose first byte, or else second byte, is above 0xFFF faults with that address. The fault is a next state, with
`opcode` and all else but the run state as it was (decision D20 of the spec, log 2). -/
def Obligations.FetchAboveMemoryFaults : Prop :=
  ∀ s : State, s.run = .running → stopTest s = false →
    (s.pc.toNat > 0xFFF →
      step s = .next { s with run := .faulted { cause := .fetch s.pc.toNat, opcode := s.opcode, pc := s.pc } }) ∧
    (s.pc.toNat = 0xFFF → s.params.addrWrap = .unwrapped →
      step s = .next { s with run := .faulted { cause := .fetch 0x1000, opcode := s.opcode, pc := s.pc } })

/-- R201, R91: a fetched word of the illegal space raises DecodeFault, recording the word and its PC; the word is in `opcode`, and
nothing else changes. -/
def Obligations.IllegalWordRaisesDecodeFault : Prop :=
  ∀ (s : State) (w : Word), Fetches s w → wellFormedWord s.params w = false →
    step s = .next { s with opcode := w, run := .faulted { cause := .decode, opcode := w, pc := s.pc } }

/-- R85, R95: a step that fetches a group-0 no-op of SYS_MODE = nop advances PC by 2 and ticks the timers, and changes nothing
else but `opcode`. -/
def Obligations.SysNopOnlyAdvancesPc : Prop :=
  ∀ (s : State) (w : Word), Fetches s w → s.params.sysMode = .nop → w.toNat < 0x1000 → w.toNat ≠ 0x00E0 → w.toNat ≠ 0x00EE →
    step s = .next { s with opcode := w, pc := s.pc + 2, dt := countDown s.dt, st := countDown s.st }

/-- R205: a step that faults writes exactly the run state, with the PC and the word, and `opcode`, which is the fetched word, or as
it was where the fetch failed; no tick, no handler write survives. Precision is the spec's decision D20 (log 2). -/
def Obligations.FaultEntryWritesOnlyRunAndOpcode : Prop :=
  ∀ (s t : State) (f : FaultRecord), s.run = .running → step s = .next t → t.run = .faulted f →
    t = { s with opcode := t.opcode, run := .faulted f } ∧ f.pc = s.pc ∧ f.opcode = t.opcode ∧
    (∀ w, fetch16 s = .ok w → t.opcode = w) ∧ (∀ c, fetch16 s = .error c → t.opcode = s.opcode ∧ f.cause = c)

/-- R200, R207: an instruction raises one kind of fault at most: RET and CALL a StackFault, DRW, SKP, SKNP, Fx33, Fx55 and Fx65 a
BoundsFault, the others none. -/
def Obligations.EachInstructionRaisesOneFaultKind : Prop :=
  ∀ (i : Instr) (s t : State) (f : FaultRecord), s.run = .running → exec i s = .next t → t.run = .faulted f →
    (f.kind = .stackFault ∧ (i = .ret ∨ ∃ nnn, i = .call nnn)) ∨
    (f.kind = .boundsFault ∧ ((∃ x y n, i = .drw x y n) ∨ (∃ x, i = .skp x) ∨ (∃ x, i = .sknp x) ∨ (∃ x, i = .ldBVx x) ∨
      (∃ x, i = .ldMemVx x) ∨ (∃ x, i = .ldVxMem x)))

/-- R211, R212: a step that ends Stopped or Faulted leaves the timers (a Faulted one by decision D20 of the spec, log 2); a completed
step that does not run Fx15 decrements DT, floored at 0, and one that does not run Fx18 so decrements ST. -/
def Obligations.TimersTickInCompletedStepsOnly : Prop :=
  ∀ s t : State, step s = .next t →
    (t.run ≠ .running → t.dt = s.dt ∧ t.st = s.st) ∧
    (t.run = .running → (∀ x, ¬ Runs s (.ldDtVx x)) → t.dt.toNat = s.dt.toNat - 1) ∧
    (t.run = .running → (∀ x, ¬ Runs s (.ldStVx x)) → t.st.toNat = s.st.toNat - 1)

/-- R212: after n completed steps from DT = d in which no instruction wrote DT, DT = max(d - n, 0); and so for ST. -/
def Obligations.TimersCountCompletedSteps : Prop :=
  ∀ (n : Nat) (s t : State),
    (CompletesIn (fun i => ∃ x, i = .ldDtVx x) n s t → t.dt.toNat = s.dt.toNat - n) ∧
    (CompletesIn (fun i => ∃ x, i = .ldStVx x) n s t → t.st.toNat = s.st.toNat - n)

/-- R250, R182, R183, R211: a timer written in a step is ticked in the same step: after a step that runs Fx15 (Fx18), DT (ST) holds
Vx - 1, or 0 when Vx is 0. -/
def Obligations.TimerWriteIsTickedInTheSameStep : Prop :=
  ∀ (s : State) (x : Reg),
    (Runs s (.ldDtVx x) → ∃ t, Completes s t ∧ t.dt.toNat = (s.getV x).toNat - 1 ∧ t.st.toNat = s.st.toNat - 1 ∧
      t.pc = s.pc + 2) ∧
    (Runs s (.ldStVx x) → ∃ t, Completes s t ∧ t.st.toNat = (s.getV x).toNat - 1 ∧ t.dt.toNat = s.dt.toNat - 1 ∧
      t.pc = s.pc + 2)

/-- R221, R181: a step of the key wait with no key pressed is a full step that changes nothing but the timers, `opcode` holding the
word fetched again. -/
def Obligations.KeyWaitStallChangesOnlyTimers : Prop :=
  ∀ (s : State) (w : Word) (x : Reg), Fetches s w → decodeWord s.params w = .instr (.ldVxK x) →
    (∀ k, k < 16 → s.keyDown k = false) →
    step s = .next { s with opcode := w, dt := countDown s.dt, st := countDown s.st }

/-! ### Invariants and whole-machine rules -/

/-- R26, R41, R44: the state after reset meets both invariants: that of R44, and the bounds of PC and the return addresses. -/
def Obligations.ResetMeetsTheInvariants : Prop :=
  Inv State.reset ∧ PcInv State.reset

/-- R44, R63, R113: every step from a state that meets the invariant gives a state that meets it: memory stays canonical and inside
the address space, SP stays in 0..16, the ROM length in 0..3584, and memory below 0x200 as `initialize` left it when
PROTECT_RESERVED = true. -/
def Obligations.StepKeepsInvariant : Prop :=
  ∀ s t : State, Inv s → step s = .next t → Inv t

/-- R26, R113, R151: PC never wraps: every step keeps PC at most 0x10FE and every return address on the stack at most 0x1001, from
states in which SP is in 0..16. -/
def Obligations.StepKeepsPcBounds : Prop :=
  ∀ s t : State, Inv s → PcInv s → step s = .next t → PcInv t

/-- R44, R218, R240: on every run from `initialize`, at any parameters, font and ROM, with any host actions in any order between
the steps, the invariant holds, and the run never ends in a fault of the model: the machine always has a next state, and only a
key number above 15 is refused (R217, decision D25 of the spec, log 32). -/
def Obligations.RunsFromInitializeKeepInvariant : Prop :=
  ∀ (p : Params) (font : FontTable) (rom : List Byte) (s : State) (es : List Event), initCore p font rom = .next s →
    (∀ t, runEvents es s = .next t → Inv t) ∧ (∀ r, runEvents es s ≠ .fault r) ∧
    (∀ r, runEvents es s = .refused r → ∃ k, 16 ≤ k ∧ r = .keyNumber k)

/-- R246: no step and no host action leaves Stopped or Faulted, and all of such a core is frozen but `redraw` and `key`. -/
def Obligations.EndedCoreIsFrozen : Prop :=
  ∀ (s t : State) (es : List Event), (EndsWell s ∨ EndsInError s) → runEvents es s = .next t →
    t = { s with redraw := t.redraw, key := t.key }

/-- R63: "no write ever targets an address below the ROM load point": with PROTECT_RESERVED = true (decision D12 of the spec, log 16)
no step changes a byte below 0x200, from any state. -/
def Obligations.ReservedAreaIsNeverWritten : Prop :=
  ∀ s t : State, s.params.protectReserved = true → step s = .next t → ∀ a, a < 0x200 → t.mem.read a = s.mem.read a

/-- R69: a step that runs neither Fx33 nor Fx55 leaves memory as it is. -/
def Obligations.OnlyTheTwoStoresChangeMemory : Prop :=
  ∀ s t : State, step s = .next t → (∀ x, ¬ Runs s (.ldBVx x)) → (∀ x, ¬ Runs s (.ldMemVx x)) → t.mem = s.mem

/-- R40, R22, R28, R69: a handler that answers a next state has entered a fault, with nothing but the run state written (decision D20
of the spec, log 2), or has written only PC, the registers the instruction names as destinations or writes as a flag, and the parts
the table of R40 gives it, or for a draw the model's counter of draws (logs 8 and 9); of memory no byte but those it stores at I and
on (Fx33 three, Fx55 x + 1, the others none), of the call stack no slot but the one CALL writes at SP (decision D8, log 27), and, for
DRW, of the display no pixel that the sprite does not cover (logs 17 and 18). -/
def Obligations.EveryHandlerKeepsItsFrame : Prop :=
  ∀ (i : Instr) (s t : State), exec i s = .next t →
    (∃ c, t = { s with run := .faulted { cause := c, opcode := s.opcode, pc := s.pc } }) ∨
    (UnchangedBut (destRegs i) (destParts i) s t ∧
      (∀ a, (∀ k, k < storeLen i → blockAddr s.params s.i k ≠ a) → t.mem.read a = s.mem.read a) ∧
      (∀ (j : Nat) (h : j < 16), (∀ nnn, i = .call nnn → j ≠ s.sp.toNat) → t.stack[j] = s.stack[j]) ∧
      (∀ x y n, i = .drw x y n → ∀ r c, ¬ SpriteCovers s x y n r c → pixel t.disp r c = pixel s.disp r c))

/-- R33: after a step the redraw flag is set exactly when it was set before or the step completed CLS or DRW, whether or not a
pixel changed (conflict C6, log 28); no step clears it. -/
def Obligations.RedrawIsSetByClsAndDrwAlone : Prop :=
  ∀ s t : State, step s = .next t →
    (t.redraw = true ↔ s.redraw = true ∨ (t.run = .running ∧ (Runs s .cls ∨ ∃ x y n, Runs s (.drw x y n))))

/-- R34, R36: no step changes the key states or the ROM length; nor the parameters or the font, which are fixed (log 1). -/
def Obligations.StepLeavesKeysAndRomLength : Prop :=
  ∀ s t : State, step s = .next t →
    t.key = s.key ∧ t.romLen = s.romLen ∧ t.params = s.params ∧ t.mem.font = s.mem.font

/-- R45: ST, redraw, opcode and rom_len cannot be read by any instruction, nor the display by any but DRW: changing them changes
nothing of what a handler leaves of the components a program can see. -/
def Obligations.HiddenStateIsNotReadByPrograms : Prop :=
  ∀ (i : Instr) (s : State) (st : Byte) (redraw : Bool) (opcode : Word) (romLen : Nat),
    programView (exec i { s with st := st, redraw := redraw, opcode := opcode, romLen := romLen }) = programView (exec i s) ∧
    ((∀ x y n, i ≠ .drw x y n) → ∀ d : Display, programView (exec i { s with disp := d }) = programView (exec i s))

/-- R255: but for RND, and Fx0A when KEY_SELECT = any, a handler's result is a function of the state of R20 alone: the free values
have no part in it. -/
def Obligations.FreeValuesReachOnlyTheirInstructions : Prop :=
  ∀ (i : Instr) (s t : State) (d : Nat), (∀ x kk, i ≠ .rnd x kk) → (∀ x, i = .ldVxK x → s.params.keySelect = .lowest) →
    exec i s = .next t → exec i { s with draws := d } = .next { t with draws := d }

/-! ### Groups 0, 1, 2 and B (40_group_0_1_2.md; 43_group_A_B_C.md) -/

/-- R110: CLS sets every pixel to 0 and the redraw flag, always (conflict C6, log 28), and changes nothing else but PC. The word is
PRESUMED (log 7). -/
def Obligations.ClsClearsTheDisplay : Prop :=
  EncodedAs .cls 0x00E0 ∧
  ∀ s : State, ∃ t, exec .cls s = .next t ∧ (∀ r c, pixel t.disp r c = false) ∧ t.redraw = true ∧ t.pc = s.pc + 2 ∧
    UnchangedBut [] [.screen] s t

/-- R111: RET with SP in 1..16 takes PC from the slot SP - 1, decrements SP and keeps every slot; with SP = 0 it is a StackFault
underflow with nothing written. That SP counts the entries and that the popped slot keeps its value is decision D8 of the spec (log
27), that the fault writes nothing else decision D20 (log 2); the word is PRESUMED (log 7); SP above 16 is in
StackPointerAboveSixteenStops. -/
def Obligations.RetPopsTheReturnAddress : Prop :=
  EncodedAs .ret 0x00EE ∧
  ∀ s : State,
    (∀ (j : Nat) (h : j < 16), s.sp.toNat = j + 1 →
      ∃ t, exec .ret s = .next t ∧ t.pc = s.stack[j] ∧ t.sp.toNat = j ∧ t.stack = s.stack ∧ UnchangedBut [] [.stack] s t) ∧
    (s.sp.toNat = 0 →
      exec .ret s = .next { s with run := .faulted { cause := .stackUnderflow 0#8, opcode := s.opcode, pc := s.pc } })

/-- R113, R202: CALL with SP below 16 puts PC + 2 in the slot SP, increments SP and goes to nnn, every other slot unchanged; with
SP = 16 it is a StackFault overflow with nothing written (conflict C4, log 27). -/
def Obligations.CallPushesTheReturnAddress : Prop :=
  ∀ (nnn : Addr) (s : State), EncodedAs (.call nnn) (0x2000 + nnn.toNat) ∧
    (∀ (j : Nat) (h : j < 16), s.sp.toNat = j →
      ∃ t, exec (.call nnn) s = .next t ∧ t.pc.toNat = nnn.toNat ∧ t.sp.toNat = j + 1 ∧ t.stack[j] = s.pc + 2 ∧
        (∀ (l : Nat) (hl : l < 16), l ≠ j → t.stack[l] = s.stack[l]) ∧ UnchangedBut [] [.stack] s t) ∧
    (s.sp.toNat = 16 →
      exec (.call nnn) s = .next { s with run := .faulted { cause := .stackOverflow 16#8, opcode := s.opcode, pc := s.pc } })

/-- R27 (log 10): with SP above 16, which no run reaches, CALL and RET stop the model by name; nothing is invented for them. -/
def Obligations.StackPointerAboveSixteenStops : Prop :=
  ∀ (nnn : Addr) (s : State), 16 < s.sp.toNat →
    exec (.call nnn) s = .fault (.stackPointer s.sp) ∧ exec .ret s = .fault (.stackPointer s.sp)

/-- R111, R113: RET after CALL, whatever ran between that left the stack and SP as CALL left them, returns to the instruction after
the CALL with SP as before it. -/
def Obligations.RetAfterCallReturns : Prop :=
  ∀ (nnn : Addr) (s t u : State), s.sp.toNat < 16 → exec (.call nnn) s = .next t → u.sp = t.sp → u.stack = t.stack →
    ∃ v, exec .ret u = .next v ∧ v.pc = s.pc + 2 ∧ v.sp = s.sp

/-- R112, R150: JP puts nnn in PC and changes nothing else; LD I puts nnn in I, 12 bits extended by zeros, and changes nothing else
but PC, which goes to the next instruction. Neither faults, whatever nnn. -/
def Obligations.AddressImmediates : Prop :=
  ∀ (nnn : Addr) (s : State), EncodedAs (.jp nnn) (0x1000 + nnn.toNat) ∧ EncodedAs (.ldI nnn) (0xA000 + nnn.toNat) ∧
    (∃ t, exec (.jp nnn) s = .next t ∧ t.pc.toNat = nnn.toNat ∧ UnchangedBut [] [] s t) ∧
    (∃ t, exec (.ldI nnn) s = .next t ∧ t.i.toNat = nnn.toNat ∧ t.pc = s.pc + 2 ∧ UnchangedBut [] [.i] s t)

/-- R151: JP V0 goes to nnn + V0, whatever the x nibble, and changes nothing else; the sum is as it is, or mod 4096 with ADDR_WRAP =
mod4096 (decision D11 of the spec, log 15). -/
def Obligations.JumpPlusV0 : Prop :=
  ∀ (nnn : Addr) (s : State), EncodedAs (.jpV0 nnn) (0xB000 + nnn.toNat) ∧
    ∃ t, exec (.jpV0 nnn) s = .next t ∧ UnchangedBut [] [] s t ∧
      (s.params.addrWrap = .unwrapped → t.pc.toNat = nnn.toNat + (s.getV 0#4).toNat) ∧
      (s.params.addrWrap = .mod4096 → t.pc.toNat = (nnn.toNat + (s.getV 0#4).toNat) % 4096)

/-! ### Groups 3, 4, 5, 9 and E (41_group_3_4_5_9.md; 45_group_E.md) -/

/-- R120, R121, R130: SE and SNE with an immediate skip by 4 or go on by 2 and write nothing but PC; LD with an immediate writes Vx,
so VF only as x = F, and nothing else but PC. None faults. -/
def Obligations.ByteImmediates : Prop :=
  ∀ (x : Reg) (kk : Byte) (s : State),
    EncodedAs (.seImm x kk) (0x3000 + x.toNat * 0x100 + kk.toNat) ∧ EncodedAs (.sneImm x kk) (0x4000 + x.toNat * 0x100 + kk.toNat) ∧
    EncodedAs (.ldImm x kk) (0x6000 + x.toNat * 0x100 + kk.toNat) ∧
    (∃ t, exec (.seImm x kk) s = .next t ∧ t.pc = (if (s.getV x).toNat = kk.toNat then s.pc + 4 else s.pc + 2) ∧
      UnchangedBut [] [] s t) ∧
    (∃ t, exec (.sneImm x kk) s = .next t ∧ t.pc = (if (s.getV x).toNat ≠ kk.toNat then s.pc + 4 else s.pc + 2) ∧
      UnchangedBut [] [] s t) ∧
    (∃ t, exec (.ldImm x kk) s = .next t ∧ t.getV x = kk ∧ t.pc = s.pc + 2 ∧ UnchangedBut [x] [] s t)

/-- R122, R123, R89: SE and SNE of two registers, with the words 5xyN and 9xyN for N other than 0 the same instructions with
LOOSE_5_9 = true and illegal with LOOSE_5_9 = false (decision D5 of the spec, log 12). The low nibble 0 is PRESUMED (log 7). -/
def Obligations.RegisterSkips : Prop :=
  ∀ (x y : Reg) (s : State),
    (∀ (p : Params) (n : Nibble), p.loose59 = true ∨ n = 0#4 →
      decodeWord p (BitVec.ofNat 16 (0x5000 + x.toNat * 0x100 + y.toNat * 0x10 + n.toNat)) = .instr (.seReg x y) ∧
      decodeWord p (BitVec.ofNat 16 (0x9000 + x.toNat * 0x100 + y.toNat * 0x10 + n.toNat)) = .instr (.sneReg x y)) ∧
    (∀ (p : Params) (n : Nibble), p.loose59 = false → n ≠ 0#4 →
      decodeWord p (BitVec.ofNat 16 (0x5000 + x.toNat * 0x100 + y.toNat * 0x10 + n.toNat)) = .illegal .group5 ∧
      decodeWord p (BitVec.ofNat 16 (0x9000 + x.toNat * 0x100 + y.toNat * 0x10 + n.toNat)) = .illegal .group9) ∧
    (∃ t, exec (.seReg x y) s = .next t ∧ t.pc = (if (s.getV x).toNat = (s.getV y).toNat then s.pc + 4 else s.pc + 2) ∧
      UnchangedBut [] [] s t) ∧
    (∃ t, exec (.sneReg x y) s = .next t ∧ t.pc = (if (s.getV x).toNat ≠ (s.getV y).toNat then s.pc + 4 else s.pc + 2) ∧
      UnchangedBut [] [] s t)

/-- R170 to R172: SKP and SKNP with Vx in 0..15 skip on the key Vx pressed, or not pressed, and write nothing but PC; with Vx above
15 they raise BoundsFault key_index with nothing written (decision D18, log 20). The words are PRESUMED (log 7). -/
def Obligations.KeySkips : Prop :=
  ∀ (x : Reg) (s : State),
    EncodedAs (.skp x) (0xE09E + x.toNat * 0x100) ∧ EncodedAs (.sknp x) (0xE0A1 + x.toNat * 0x100) ∧
    (∀ (k : Nat) (h : k < 16), (s.getV x).toNat = k →
      (∃ t, exec (.skp x) s = .next t ∧ t.pc = (if s.key[k] = true then s.pc + 4 else s.pc + 2) ∧ UnchangedBut [] [] s t) ∧
      (∃ t, exec (.sknp x) s = .next t ∧ t.pc = (if s.key[k] = false then s.pc + 4 else s.pc + 2) ∧ UnchangedBut [] [] s t)) ∧
    (15 < (s.getV x).toNat →
      exec (.skp x) s = .next { s with run := .faulted { cause := .keyIndex (s.getV x), opcode := s.opcode, pc := s.pc } } ∧
      exec (.sknp x) s = .next { s with run := .faulted { cause := .keyIndex (s.getV x), opcode := s.opcode, pc := s.pc } })

/-! ### Groups 6, 7 and 8 (42_group_6_7_8.md) and RND -/

/-- R131, R142: ADD with an immediate is mod 256 and writes no flag (decision D7, log 24). -/
def Obligations.ImmediateAddHasNoFlag : Prop :=
  ∀ (x : Reg) (kk : Byte) (s : State), EncodedAs (.addImm x kk) (0x7000 + x.toNat * 0x100 + kk.toNat) ∧
    ∃ t, exec (.addImm x kk) s = .next t ∧ (t.getV x).toNat = ((s.getV x).toNat + kk.toNat) % 256 ∧ t.pc = s.pc + 2 ∧
      UnchangedBut [x] [] s t

/-- R133 to R136: LD, OR, AND and XOR of registers write Vx and nothing else but PC, no flag (decision D7, log 24). The words are
PRESUMED (log 7). -/
def Obligations.RegisterCopyAndLogic : Prop :=
  ∀ (x y : Reg) (s : State),
    EncodedAs (.ldReg x y) (0x8000 + x.toNat * 0x100 + y.toNat * 0x10) ∧
    EncodedAs (.orReg x y) (0x8001 + x.toNat * 0x100 + y.toNat * 0x10) ∧
    EncodedAs (.andReg x y) (0x8002 + x.toNat * 0x100 + y.toNat * 0x10) ∧
    EncodedAs (.xorReg x y) (0x8003 + x.toNat * 0x100 + y.toNat * 0x10) ∧
    (∃ t, exec (.ldReg x y) s = .next t ∧ t.getV x = s.getV y ∧ t.pc = s.pc + 2 ∧ UnchangedBut [x] [] s t) ∧
    (∃ t, exec (.orReg x y) s = .next t ∧ (∀ b, (t.getV x).getLsbD b = ((s.getV x).getLsbD b || (s.getV y).getLsbD b)) ∧
      t.pc = s.pc + 2 ∧ UnchangedBut [x] [] s t) ∧
    (∃ t, exec (.andReg x y) s = .next t ∧ (∀ b, (t.getV x).getLsbD b = ((s.getV x).getLsbD b && (s.getV y).getLsbD b)) ∧
      t.pc = s.pc + 2 ∧ UnchangedBut [x] [] s t) ∧
    (∃ t, exec (.xorReg x y) s = .next t ∧ (∀ b, (t.getV x).getLsbD b = ((s.getV x).getLsbD b ^^ (s.getV y).getLsbD b)) ∧
      t.pc = s.pc + 2 ∧ UnchangedBut [x] [] s t)

/-- R132, R137: ADD Vx, Vy. The flag is the carry of the operands at the start; the result, written last, is taken from the same
operands with ALU_VF_READ = snapshot, and with reread from the registers after the VF write, where VF holds the flag (decision D6 of the
spec, log 13). The word is PRESUMED (log 7). -/
def Obligations.AddWithCarry : Prop :=
  ∀ (x y : Reg) (s : State), EncodedAs (.addReg x y) (0x8004 + x.toNat * 0x100 + y.toNat * 0x10) ∧
    ∃ t, exec (.addReg x y) s = .next t ∧ t.pc = s.pc + 2 ∧ UnchangedBut [x, vf] [] s t ∧
      ∀ f : Nat, f = (if (s.getV x).toNat + (s.getV y).toNat > 255 then 1 else 0) →
        (x ≠ vf → (t.getV vf).toNat = f) ∧
        (s.params.aluVfRead = .snapshot → (t.getV x).toNat = ((s.getV x).toNat + (s.getV y).toNat) % 256) ∧
        (s.params.aluVfRead = .reread →
          (t.getV x).toNat =
            ((if x = vf then f else (s.getV x).toNat) + (if y = vf then f else (s.getV y).toNat)) % 256)

/-- R132, R138, R140, R142: SUB and SUBN. The flag is no-borrow of the operands at the start, 1 on equal operands; the results as
in R132 for the two values of ALU_VF_READ (decisions D6 and D33 of the spec, logs 13 and 29). The words are PRESUMED (log 7). -/
def Obligations.SubtractWithNoBorrow : Prop :=
  ∀ (x y : Reg) (s : State),
    EncodedAs (.subReg x y) (0x8005 + x.toNat * 0x100 + y.toNat * 0x10) ∧
    EncodedAs (.subn x y) (0x8007 + x.toNat * 0x100 + y.toNat * 0x10) ∧
    (∃ t, exec (.subReg x y) s = .next t ∧ t.pc = s.pc + 2 ∧ UnchangedBut [x, vf] [] s t ∧
      ∀ f : Nat, f = (if (s.getV x).toNat ≥ (s.getV y).toNat then 1 else 0) →
        (x ≠ vf → (t.getV vf).toNat = f) ∧
        (s.params.aluVfRead = .snapshot → (t.getV x).toNat = ((s.getV x).toNat + 256 - (s.getV y).toNat) % 256) ∧
        (s.params.aluVfRead = .reread →
          (t.getV x).toNat =
            ((if x = vf then f else (s.getV x).toNat) + 256 - (if y = vf then f else (s.getV y).toNat)) % 256)) ∧
    (∃ t, exec (.subn x y) s = .next t ∧ t.pc = s.pc + 2 ∧ UnchangedBut [x, vf] [] s t ∧
      ∀ f : Nat, f = (if (s.getV y).toNat ≥ (s.getV x).toNat then 1 else 0) →
        (x ≠ vf → (t.getV vf).toNat = f) ∧
        (s.params.aluVfRead = .snapshot → (t.getV x).toNat = ((s.getV y).toNat + 256 - (s.getV x).toNat) % 256) ∧
        (s.params.aluVfRead = .reread →
          (t.getV x).toNat =
            ((if y = vf then f else (s.getV y).toNat) + 256 - (if x = vf then f else (s.getV x).toNat)) % 256))

/-- R132, R139, R141: SHR and SHL shift Vx by one and never read Vy (conflict C10, log 30); the flag is the bit shifted out. For
the two values of ALU_VF_READ see log 13; the words are PRESUMED (log 7). -/
def Obligations.ShiftsByOne : Prop :=
  ∀ (x y : Reg) (s : State),
    EncodedAs (.shr x y) (0x8006 + x.toNat * 0x100 + y.toNat * 0x10) ∧
    EncodedAs (.shl x y) (0x800E + x.toNat * 0x100 + y.toNat * 0x10) ∧
    (∃ t, exec (.shr x y) s = .next t ∧ t.pc = s.pc + 2 ∧ UnchangedBut [x, vf] [] s t ∧
      (x ≠ vf → (t.getV vf).toNat = (s.getV x).toNat % 2) ∧
      (s.params.aluVfRead = .snapshot ∨ x ≠ vf → (t.getV x).toNat = (s.getV x).toNat / 2) ∧
      (s.params.aluVfRead = .reread → x = vf → (t.getV x).toNat = 0)) ∧
    (∃ t, exec (.shl x y) s = .next t ∧ t.pc = s.pc + 2 ∧ UnchangedBut [x, vf] [] s t ∧
      (x ≠ vf → (t.getV vf).toNat = (s.getV x).toNat / 128) ∧
      (s.params.aluVfRead = .snapshot ∨ x ≠ vf → (t.getV x).toNat = (s.getV x).toNat * 2 % 256) ∧
      (s.params.aluVfRead = .reread → x = vf → (t.getV x).toNat = (s.getV x).toNat / 128 * 2))

/-- R132: the two values of ALU_VF_READ (decision D6 of the spec, log 13) give the same final state whenever x and y are not F. -/
def Obligations.AluVfReadMattersOnlyForVf : Prop :=
  ∀ (x y : Reg) (i : Instr) (s t : State), x ≠ vf → y ≠ vf → i ∈ [.addReg x y, .subReg x y, .shr x y, .subn x y, .shl x y] →
    exec i { s with params := { s.params with aluVfRead := .snapshot } } = .next t →
    exec i { s with params := { s.params with aluVfRead := .reread } } =
      .next { t with params := { s.params with aluVfRead := .reread } }

/-- R152, R13: RND completes whatever the draw; Vx is the drawn byte masked by kk, so a bit that is 0 in kk is 0 in the result.
The byte is a free value (log 8): the statement holds for every value of the draw counter, and of none is anything said. -/
def Obligations.RandomByteIsMasked : Prop :=
  ∀ (x : Reg) (kk : Byte) (s : State), EncodedAs (.rnd x kk) (0xC000 + x.toNat * 0x100 + kk.toNat) ∧
    ∃ t, exec (.rnd x kk) s = .next t ∧ t.getV x = Config.drawByte s.draws &&& kk ∧ t.draws = s.draws + 1 ∧
      (∀ b, kk.getLsbD b = false → (t.getV x).getLsbD b = false) ∧ t.pc = s.pc + 2 ∧ UnchangedBut [x] [.draws] s t

/-! ### The index register and the timers (46_group_F.md) -/

/-- R184, R185: ADD I is mod 2^16 with no flag (decision D14, logs 24 and 26); LD F is Vx times 5, the whole of Vx. The words are
PRESUMED (log 7). -/
def Obligations.IndexWrites : Prop :=
  ∀ (x : Reg) (s : State),
    EncodedAs (.addIVx x) (0xF01E + x.toNat * 0x100) ∧ EncodedAs (.ldFVx x) (0xF029 + x.toNat * 0x100) ∧
    (∃ t, exec (.addIVx x) s = .next t ∧ t.i.toNat = (s.i.toNat + (s.getV x).toNat) % 65536 ∧ t.pc = s.pc + 2 ∧
      UnchangedBut [] [.i] s t) ∧
    (∃ t, exec (.ldFVx x) s = .next t ∧ t.i.toNat = (s.getV x).toNat * 5 ∧ t.pc = s.pc + 2 ∧ UnchangedBut [] [.i] s t)

/-- R180, R182, R183: the handlers of the timer instructions, before the tick of the step. The words are PRESUMED (log 7). -/
def Obligations.TimerTransfers : Prop :=
  ∀ (x : Reg) (s : State),
    EncodedAs (.ldVxDt x) (0xF007 + x.toNat * 0x100) ∧ EncodedAs (.ldDtVx x) (0xF015 + x.toNat * 0x100) ∧
    EncodedAs (.ldStVx x) (0xF018 + x.toNat * 0x100) ∧
    (∃ t, exec (.ldVxDt x) s = .next t ∧ t.getV x = s.dt ∧ t.pc = s.pc + 2 ∧ UnchangedBut [x] [] s t) ∧
    (∃ t, exec (.ldDtVx x) s = .next t ∧ t.dt = s.getV x ∧ t.pc = s.pc + 2 ∧ UnchangedBut [] [.dt] s t) ∧
    (∃ t, exec (.ldStVx x) s = .next t ∧ t.st = s.getV x ∧ t.pc = s.pc + 2 ∧ UnchangedBut [] [.st] s t)

/-- R181: the key wait with some key pressed records a pressed key in Vx, the lowest one with KEY_SELECT = lowest, and goes on; with
none pressed it writes nothing. Level-triggered (conflict C2, log 21); with KEY_SELECT = any the choice is free (log 9). The
word is PRESUMED (log 7). -/
def Obligations.KeyWaitRecordsAPressedKey : Prop :=
  ∀ (x : Reg) (s : State), EncodedAs (.ldVxK x) (0xF00A + x.toNat * 0x100) ∧
    ((∃ k, k < 16 ∧ s.keyDown k = true) →
      ∃ t k, exec (.ldVxK x) s = .next t ∧ k < 16 ∧ s.keyDown k = true ∧
        (s.params.keySelect = .lowest → ∀ j, j < k → s.keyDown j = false) ∧
        (s.params.keySelect = .lowest → t.draws = s.draws) ∧
        t.getV x = BitVec.ofNat 8 k ∧ t.pc = s.pc + 2 ∧ UnchangedBut [x] [.draws] s t) ∧
    ((∀ k, k < 16 → s.keyDown k = false) → exec (.ldVxK x) s = .next s)

/-! ### Block memory (20_memory.md; 46_group_F.md R186 to R188) -/

/-- R186: LD B on a writable block stores the hundreds, tens and ones of Vx at I, I + 1 and I + 2 (as ADDR_WRAP computes them) and
changes no other byte and nothing else but PC. The word is PRESUMED (log 7). -/
def Obligations.BcdStoresThreeDigits : Prop :=
  ∀ (x : Reg) (s : State), EncodedAs (.ldBVx x) (0xF033 + x.toNat * 0x100) ∧
    (Writable s 3 →
      ∃ t, exec (.ldBVx x) s = .next t ∧
        (t.mem.read (blockAddr s.params s.i 0)).toNat = (s.getV x).toNat / 100 ∧
        (t.mem.read (blockAddr s.params s.i 1)).toNat = (s.getV x).toNat / 10 % 10 ∧
        (t.mem.read (blockAddr s.params s.i 2)).toNat = (s.getV x).toNat % 10 ∧
        (∀ a, (∀ k, k < 3 → blockAddr s.params s.i k ≠ a) → t.mem.read a = s.mem.read a) ∧
        t.pc = s.pc + 2 ∧ UnchangedBut [] [.memory] s t)

/-- R187: LD [I], Vx on a writable block stores V0..Vx at I..I + x and changes no other byte, not I (decision D13, log 25), and
nothing else but PC. The word is PRESUMED (log 7). -/
def Obligations.RegisterStoreWritesTheBlock : Prop :=
  ∀ (x : Reg) (s : State), EncodedAs (.ldMemVx x) (0xF055 + x.toNat * 0x100) ∧
    (Writable s (x.toNat + 1) →
      ∃ t, exec (.ldMemVx x) s = .next t ∧
        (∀ k, k ≤ x.toNat → t.mem.read (blockAddr s.params s.i k) = s.getV (BitVec.ofNat 4 k)) ∧
        (∀ a, (∀ k, k ≤ x.toNat → blockAddr s.params s.i k ≠ a) → t.mem.read a = s.mem.read a) ∧
        t.pc = s.pc + 2 ∧ UnchangedBut [] [.memory] s t)

/-- R188: LD Vx, [I] on a readable block loads V0..Vx from I..I + x and changes no other register, not I (decision D13, log 25), no
byte of memory, and nothing else but PC. The word is PRESUMED (log 7). -/
def Obligations.RegisterLoadReadsTheBlock : Prop :=
  ∀ (x : Reg) (s : State), EncodedAs (.ldVxMem x) (0xF065 + x.toNat * 0x100) ∧
    (Readable s (x.toNat + 1) →
      ∃ t, exec (.ldVxMem x) s = .next t ∧
        (∀ k, k ≤ x.toNat → t.getV (BitVec.ofNat 4 k) = s.mem.read (blockAddr s.params s.i k)) ∧
        (∀ r : Reg, x.toNat < r.toNat → t.getV r = s.getV r) ∧ t.pc = s.pc + 2 ∧
        UnchangedBut ((List.range (x.toNat + 1)).map (BitVec.ofNat 4)) [] s t)

/-- R62, R63, R70, R203, R207: a block instruction that meets an address it may not use writes nothing and records the lowest
offending one: the first byte k whose address is above 0xFFF, or for a store is below 0x200 with PROTECT_RESERVED = true (decision D12 of
the spec, log 16). That the first offence is the one recorded is decision D30 (log 33); nothing at all is written because faults are
precise (decision D20, log 2). -/
def Obligations.BlockFaultNamesTheFirstOffence : Prop :=
  ∀ (s : State) (x y : Reg) (n : Nibble) (k a : Nat), a = blockAddr s.params s.i k →
    ((∀ j, j < k → blockAddr s.params s.i j ≤ 0xFFF) → a > 0xFFF →
      (k < n.toNat → exec (.drw x y n) s = .next (s.enterFault (.memRead a))) ∧
      (k < x.toNat + 1 → exec (.ldVxMem x) s = .next (s.enterFault (.memRead a)))) ∧
    ((∀ j, j < k → WritableAddr s.params (blockAddr s.params s.i j)) → ¬ WritableAddr s.params a →
      ∀ c, c = (if a > 0xFFF then FaultCause.memWrite a else .reservedWrite a) →
        (k < 3 → exec (.ldBVx x) s = .next (s.enterFault c)) ∧
        (k < x.toNat + 1 → exec (.ldMemVx x) s = .next (s.enterFault c)))

/-- R73, R251: a word that LD [I], Vx has stored is fetched as written by a step that comes to it: V0 is its high byte, V1 its low
byte. -/
def Obligations.StoredWordIsFetched : Prop :=
  ∀ (x : Reg) (s t u : State), 1 ≤ x.toNat → Writable s (x.toNat + 1) → s.i.toNat ≤ 0xFFF → exec (.ldMemVx x) s = .next t →
    u.mem = t.mem → u.params = t.params → u.pc = s.i → fetch16 u = .ok (wordOfBytes (s.getV 0#4) (s.getV 1#4))

/-! ### DRW (44_group_D.md) -/

/-- R160 to R163: DRW on a readable sprite toggles exactly the pixels the sprite covers, for both edge behaviours (decision D15 of the
spec, log 17); VF is 1 exactly when some pixel that was 1 is 0 after it; redraw is set, always (conflict C6, log 28); nothing else
changes but PC. A sprite is readable when exactly its n bytes are (conflict C3, log 40). The bit order and the axes are PRESUMED (log
18); n = 0 draws nothing (decision D17, log 19). -/
def Obligations.DrawTogglesTheCoveredPixels : Prop :=
  ∀ (x y : Reg) (n : Nibble) (s : State), EncodedAs (.drw x y n) (0xD000 + x.toNat * 0x100 + y.toNat * 0x10 + n.toNat) ∧
    (Readable s n.toNat →
      ∃ t, exec (.drw x y n) s = .next t ∧
        (∀ r c, SpriteCovers s x y n r c → pixel t.disp r c = !pixel s.disp r c) ∧
        (∀ r c, ¬ SpriteCovers s x y n r c → pixel t.disp r c = pixel s.disp r c) ∧
        ((∃ r c, pixel s.disp r c = true ∧ pixel t.disp r c = false) → t.getV vf = 1#8) ∧
        ((∀ r c, pixel s.disp r c = true → pixel t.disp r c = true) → t.getV vf = 0#8) ∧
        t.redraw = true ∧ t.pc = s.pc + 2 ∧ UnchangedBut [vf] [.screen] s t)

/-- W4, R160, R163: drawing the same sprite twice at the same coordinates restores the display, whatever was on it; and on a cleared
display the first draw gives VF = 0, and the second VF = 1 when the sprite covers any pixel. With x or y = F
the first draw writes the coordinate, so the second is drawn elsewhere: DrawTogglesTheCoveredPixels says what it does. -/
def Obligations.DrawingTwiceRestoresTheDisplay : Prop :=
  ∀ (x y : Reg) (n : Nibble) (s t u : State), x ≠ vf → y ≠ vf → Readable s n.toNat → exec (.drw x y n) s = .next t →
    exec (.drw x y n) t = .next u →
    u.disp = s.disp ∧
    ((∀ r c, pixel s.disp r c = false) → t.getV vf = 0#8 ∧ ((∃ r c, SpriteCovers s x y n r c) → u.getV vf = 1#8))

/-! ### Reset and the host (60_exceptions.md R215 to R223; 70_reset_and_hazards.md) -/

/-- R241: a ROM of 0 to 3584 bytes is accepted, and a longer one is a ConfigFault that leaves no state (conflict C5, decision D34 of the
spec, log 31); with STOP_CMP = ge (decision D10, log 14) the first step of the empty ROM stops the core (0x200 >= 0x200 + 0). -/
def Obligations.RomLengthIsCheckedFirst : Prop :=
  ∀ (p : Params) (font : FontTable) (rom : List Byte),
    (rom.length ≤ 3584 → ∃ s, initCore p font rom = .next s ∧ s.run = .running) ∧
    (3584 < rom.length → initCore p font rom = .fault (.romTooLong rom.length)) ∧
    (∀ s, initCore p font [] = .next s → p.stopCmp = .ge → step s = .next { s with run := .stopped })

/-- R240 to R242, R41, R42: after `initialize` the font is at 0x000..0x04F, the ROM from 0x200, every other byte is 0, and the
components have their reset values. The zeros that the source does not name are the spec's decision D21 (logs 4 and 5). -/
def Obligations.InitializeLaysOutTheMachine : Prop :=
  ∀ (p : Params) (font : FontTable) (rom : List Byte) (s : State), initCore p font rom = .next s →
    (∀ (j : Nat) (h : j < 80), s.mem.read j = font[j]) ∧
    (∀ (j : Nat) (h : j < rom.length), s.mem.read (0x200 + j) = rom[j]) ∧
    (∀ a, 80 ≤ a → a < 0x200 ∨ 0x200 + rom.length ≤ a → s.mem.read a = 0#8) ∧
    (∀ r, s.getV r = 0#8) ∧ s.i = 0#16 ∧ s.pc = 0x200#16 ∧ s.sp = 0#8 ∧ (∀ (j : Nat) (h : j < 16), s.stack[j] = 0#16) ∧
    s.dt = 0#8 ∧ s.st = 0#8 ∧ (∀ r c, pixel s.disp r c = false) ∧ s.redraw = false ∧
    (∀ (k : Nat) (h : k < 16), s.key[k] = false) ∧ s.opcode = 0x0000#16 ∧ s.romLen = rom.length ∧ s.run = .running

/-- R216: consume_redraw returns the flag and clears it, and changes nothing else; consumed twice with no step between, the second
returns false. -/
def Obligations.ConsumeRedrawReturnsAndClears : Prop :=
  ∀ s : State, (consumeRedraw s).1 = s.redraw ∧ (consumeRedraw s).2 = { s with redraw := false } ∧
    (consumeRedraw (consumeRedraw s).2).1 = false

/-- R217: set_key sets that key and nothing else; a key number outside 0..15 is refused (decision D25, log 32). -/
def Obligations.SetKeySetsOneKey : Prop :=
  ∀ (k : Nat) (b : Bool) (s : State),
    (k < 16 → ∃ t, setKey k b s = .next t ∧ t = { s with key := t.key } ∧ t.keyDown k = b ∧
      ∀ j, j ≠ k → t.keyDown j = s.keyDown j) ∧
    (16 ≤ k → setKey k b s = .refused (.keyNumber k))
end

