-- ==== Sys2Proof/Laws/Decode.lean ====
section
/-! SUPPORT. The fields of the words the formats assemble, the masks of the opcode map as conditions on fields, and a word as its
two bytes. -/

namespace Sys2Proof

/-! ### Words as numbers -/

theorem toNat_formatA {g : Nat} (hg : g < 16) (nnn : Addr) : (formatA g nnn).toNat = g * 4096 + nnn.toNat := by
  have := nnn.isLt
  simp only [formatA, BitVec.toNat_ofNat]; omega

theorem toNat_formatXK {g : Nat} (hg : g < 16) (x : Reg) (kk : Byte) :
    (formatXK g x kk).toNat = g * 4096 + x.toNat * 256 + kk.toNat := by
  have := x.isLt; have := kk.isLt
  simp only [formatXK, BitVec.toNat_ofNat]; omega

theorem toNat_formatXY {g : Nat} (hg : g < 16) (x y : Reg) {f : Nat} (hf : f < 16) :
    (formatXY g x y f).toNat = g * 4096 + x.toNat * 256 + y.toNat * 16 + f := by
  have := x.isLt; have := y.isLt
  simp only [formatXY, BitVec.toNat_ofNat]; omega

theorem toNat_formatX {g : Nat} (hg : g < 16) (x : Reg) {f : Nat} (hf : f < 256) :
    (formatX g x f).toNat = g * 4096 + x.toNat * 256 + f := by
  have := x.isLt
  simp only [formatX, BitVec.toNat_ofNat]; omega

/-! ### The fields of a word, as numbers -/

theorem fieldG_eq (op : Word) : fieldG op = op.toNat / 4096 := by
  have := op.isLt
  simp only [fieldG, field]; omega

theorem fieldX_eq (op : Word) : (fieldX op).toNat = op.toNat / 256 % 16 := by
  simp [fieldX, field]

theorem fieldY_eq (op : Word) : (fieldY op).toNat = op.toNat / 16 % 16 := by
  simp [fieldY, field]

theorem fieldN_eq (op : Word) : (fieldN op).toNat = op.toNat % 16 := by
  simp [fieldN, field]

theorem fieldKK_eq (op : Word) : (fieldKK op).toNat = op.toNat % 256 := by
  simp [fieldKK, field]

theorem fieldNNN_eq (op : Word) : (fieldNNN op).toNat = op.toNat % 4096 := by
  simp [fieldNNN, field]

theorem field_3_0 (op : Word) : field op 3 0 = op.toNat % 16 := by
  simp [field]

theorem field_7_0 (op : Word) : field op 7 0 = op.toNat % 256 := by
  simp [field]

theorem fieldG_lt (op : Word) : fieldG op < 16 := by
  have := op.isLt
  rw [fieldG_eq]; omega

/-! ### The fields of an assembled word -/

theorem fieldG_formatA {g : Nat} (hg : g < 16) (nnn : Addr) : fieldG (formatA g nnn) = g := by
  have := nnn.isLt
  rw [fieldG_eq, toNat_formatA hg]; omega

theorem fieldNNN_formatA {g : Nat} (hg : g < 16) (nnn : Addr) : fieldNNN (formatA g nnn) = nnn := by
  have := nnn.isLt
  apply BitVec.eq_of_toNat_eq
  rw [fieldNNN_eq, toNat_formatA hg]; omega

theorem fieldG_formatXK {g : Nat} (hg : g < 16) (x : Reg) (kk : Byte) : fieldG (formatXK g x kk) = g := by
  have := x.isLt; have := kk.isLt
  rw [fieldG_eq, toNat_formatXK hg]; omega

theorem fieldX_formatXK {g : Nat} (hg : g < 16) (x : Reg) (kk : Byte) : fieldX (formatXK g x kk) = x := by
  have := x.isLt; have := kk.isLt
  apply BitVec.eq_of_toNat_eq
  rw [fieldX_eq, toNat_formatXK hg]; omega

theorem fieldKK_formatXK {g : Nat} (hg : g < 16) (x : Reg) (kk : Byte) : fieldKK (formatXK g x kk) = kk := by
  have := x.isLt; have := kk.isLt
  apply BitVec.eq_of_toNat_eq
  rw [fieldKK_eq, toNat_formatXK hg]; omega

theorem fieldG_formatXY {g : Nat} (hg : g < 16) (x y : Reg) {f : Nat} (hf : f < 16) : fieldG (formatXY g x y f) = g := by
  have := x.isLt; have := y.isLt
  rw [fieldG_eq, toNat_formatXY hg x y hf]; omega

theorem fieldX_formatXY {g : Nat} (hg : g < 16) (x y : Reg) {f : Nat} (hf : f < 16) : fieldX (formatXY g x y f) = x := by
  have := x.isLt; have := y.isLt
  apply BitVec.eq_of_toNat_eq
  rw [fieldX_eq, toNat_formatXY hg x y hf]; omega

theorem fieldY_formatXY {g : Nat} (hg : g < 16) (x y : Reg) {f : Nat} (hf : f < 16) : fieldY (formatXY g x y f) = y := by
  have := x.isLt; have := y.isLt
  apply BitVec.eq_of_toNat_eq
  rw [fieldY_eq, toNat_formatXY hg x y hf]; omega

theorem fieldN_formatXY {g : Nat} (hg : g < 16) (x y : Reg) {f : Nat} (hf : f < 16) :
    fieldN (formatXY g x y f) = BitVec.ofNat 4 f := by
  have := x.isLt; have := y.isLt
  apply BitVec.eq_of_toNat_eq
  rw [fieldN_eq, toNat_formatXY hg x y hf, BitVec.toNat_ofNat]; omega

theorem field_3_0_formatXY {g : Nat} (hg : g < 16) (x y : Reg) {f : Nat} (hf : f < 16) : field (formatXY g x y f) 3 0 = f := by
  have := x.isLt; have := y.isLt
  rw [field_3_0, toNat_formatXY hg x y hf]; omega

theorem fieldG_formatX {g : Nat} (hg : g < 16) (x : Reg) {f : Nat} (hf : f < 256) : fieldG (formatX g x f) = g := by
  have := x.isLt
  rw [fieldG_eq, toNat_formatX hg x hf]; omega

theorem fieldX_formatX {g : Nat} (hg : g < 16) (x : Reg) {f : Nat} (hf : f < 256) : fieldX (formatX g x f) = x := by
  have := x.isLt
  apply BitVec.eq_of_toNat_eq
  rw [fieldX_eq, toNat_formatX hg x hf]; omega

theorem field_7_0_formatX {g : Nat} (hg : g < 16) (x : Reg) {f : Nat} (hf : f < 256) : field (formatX g x f) 7 0 = f := by
  have := x.isLt
  rw [field_7_0, toNat_formatX hg x hf]; omega

/-! ### A word is what its fields say -/

theorem formatA_fields {op : Word} {g : Nat} (h : fieldG op = g) : formatA g (fieldNNN op) = op := by
  have := op.isLt
  rw [fieldG_eq] at h
  apply BitVec.eq_of_toNat_eq
  rw [toNat_formatA (by omega), fieldNNN_eq]; omega

theorem formatXK_fields {op : Word} {g : Nat} (h : fieldG op = g) : formatXK g (fieldX op) (fieldKK op) = op := by
  have := op.isLt
  rw [fieldG_eq] at h
  apply BitVec.eq_of_toNat_eq
  rw [toNat_formatXK (by omega), fieldX_eq, fieldKK_eq]; omega

theorem formatXY_fields {op : Word} {g f : Nat} (h : fieldG op = g) (hf : field op 3 0 = f) :
    formatXY g (fieldX op) (fieldY op) f = op := by
  have := op.isLt
  rw [fieldG_eq] at h
  rw [field_3_0] at hf
  apply BitVec.eq_of_toNat_eq
  rw [toNat_formatXY (by omega) _ _ (by omega), fieldX_eq, fieldY_eq]; omega

theorem formatX_fields {op : Word} {g f : Nat} (h : fieldG op = g) (hf : field op 7 0 = f) : formatX g (fieldX op) f = op := by
  have := op.isLt
  rw [fieldG_eq] at h
  rw [field_7_0] at hf
  apply BitVec.eq_of_toNat_eq
  rw [toNat_formatX (by omega) _ (by omega), fieldX_eq]; omega

/-! ### A word is its two bytes (R65) -/

@[simp] theorem wordOfBytes_bytes (w : Word) : wordOfBytes (highByte w) (lowByte w) = w := by
  have := w.isLt
  apply BitVec.eq_of_toNat_eq
  simp only [wordOfBytes, highByte, lowByte, BitVec.toNat_ofNat]; omega

@[simp] theorem highByte_wordOfBytes (hi lo : Byte) : highByte (wordOfBytes hi lo) = hi := by
  have := hi.isLt; have := lo.isLt
  apply BitVec.eq_of_toNat_eq
  simp only [wordOfBytes, highByte, BitVec.toNat_ofNat]; omega

@[simp] theorem lowByte_wordOfBytes (hi lo : Byte) : lowByte (wordOfBytes hi lo) = lo := by
  have := hi.isLt; have := lo.isLt
  apply BitVec.eq_of_toNat_eq
  simp only [wordOfBytes, lowByte, BitVec.toNat_ofNat]; omega

/-! ### The masks of the opcode map as conditions on fields -/

/-- AND, nibble by nibble. -/
theorem land_nibble (a c : Nat) {b d : Nat} (hb : b < 16) (hd : d < 16) :
    (a * 16 + b) &&& (c * 16 + d) = (a &&& c) * 16 + (b &&& d) := by
  have hbd : b &&& d < 16 := Nat.lt_of_le_of_lt Nat.and_le_left hb
  apply Nat.eq_of_testBit_eq
  intro i
  rw [Nat.testBit_and, Nat.mul_comm a, Nat.mul_comm c, Nat.mul_comm (a &&& c), show 16 = 2 ^ 4 from rfl,
    Nat.testBit_two_pow_mul_add _ hb, Nat.testBit_two_pow_mul_add _ hd, Nat.testBit_two_pow_mul_add _ hbd]
  split <;> simp

theorem land_F {b : Nat} (hb : b < 16) : b &&& 15 = b := by
  have := Nat.and_two_pow_sub_one_eq_mod b 4
  simpa [Nat.mod_eq_of_lt hb] using this

theorem toNat_nibbles (op : Word) : op.toNat =
    ((op.toNat / 4096 * 16 + op.toNat / 256 % 16) * 16 + op.toNat / 16 % 16) * 16 + op.toNat % 16 := by omega

theorem and_mask_F000 (op : Word) : (op &&& 0xF000#16).toNat = op.toNat / 4096 * 4096 := by
  have := op.isLt
  have e : (0xF000#16 : Word).toNat = ((15 * 16 + 0) * 16 + 0) * 16 + 0 := rfl
  rw [BitVec.toNat_and, toNat_nibbles op, e, land_nibble _ _ (by omega) (by omega), land_nibble _ _ (by omega) (by omega),
    land_nibble _ _ (by omega) (by omega), land_F (by omega)]
  simp only [Nat.and_zero]
  omega

theorem and_mask_F00F (op : Word) : (op &&& 0xF00F#16).toNat = op.toNat / 4096 * 4096 + op.toNat % 16 := by
  have := op.isLt
  have e : (0xF00F#16 : Word).toNat = ((15 * 16 + 0) * 16 + 0) * 16 + 15 := rfl
  rw [BitVec.toNat_and, toNat_nibbles op, e, land_nibble _ _ (by omega) (by omega), land_nibble _ _ (by omega) (by omega),
    land_nibble _ _ (by omega) (by omega), land_F (by omega), land_F (by omega)]
  simp only [Nat.and_zero]
  omega

theorem and_mask_F0FF (op : Word) : (op &&& 0xF0FF#16).toNat = op.toNat / 4096 * 4096 + op.toNat % 256 := by
  have := op.isLt
  have e : (0xF0FF#16 : Word).toNat = ((15 * 16 + 0) * 16 + 15) * 16 + 15 := rfl
  rw [BitVec.toNat_and, toNat_nibbles op, e, land_nibble _ _ (by omega) (by omega), land_nibble _ _ (by omega) (by omega),
    land_nibble _ _ (by omega) (by omega), land_F (by omega), land_F (by omega), land_F (by omega)]
  simp only [Nat.and_zero]
  omega

theorem and_mask_FFFF (op : Word) : op &&& 0xFFFF#16 = op := by
  simpa using BitVec.and_allOnes (x := op)

theorem matchesWord_iff (r : OpcodeRow) (op : Word) : r.matchesWord op = true ↔ (op &&& r.mask).toNat = r.bits.toNat := by
  simp only [OpcodeRow.matchesWord, beq_iff_eq]
  exact ⟨fun h => congrArg BitVec.toNat h, BitVec.eq_of_toNat_eq⟩

/-- A row of mask 0xF000 asks for the top nibble. -/
theorem matchesWord_F000 (m : String) (bits op : Word) :
    OpcodeRow.matchesWord ⟨m, 0xF000#16, bits⟩ op = decide (op.toNat / 4096 * 4096 = bits.toNat) := by
  rw [Bool.eq_iff_iff, decide_eq_true_iff, matchesWord_iff, and_mask_F000]

/-- A row of mask 0xF00F asks for the top and the low nibble. -/
theorem matchesWord_F00F (m : String) (bits op : Word) :
    OpcodeRow.matchesWord ⟨m, 0xF00F#16, bits⟩ op = decide (op.toNat / 4096 * 4096 + op.toNat % 16 = bits.toNat) := by
  rw [Bool.eq_iff_iff, decide_eq_true_iff, matchesWord_iff, and_mask_F00F]

/-- A row of mask 0xF0FF asks for the top nibble and the low byte. -/
theorem matchesWord_F0FF (m : String) (bits op : Word) :
    OpcodeRow.matchesWord ⟨m, 0xF0FF#16, bits⟩ op = decide (op.toNat / 4096 * 4096 + op.toNat % 256 = bits.toNat) := by
  rw [Bool.eq_iff_iff, decide_eq_true_iff, matchesWord_iff, and_mask_F0FF]

/-- A row of mask 0xFFFF asks for the word. -/
theorem matchesWord_FFFF (m : String) (bits op : Word) :
    OpcodeRow.matchesWord ⟨m, 0xFFFF#16, bits⟩ op = decide (op.toNat = bits.toNat) := by
  rw [Bool.eq_iff_iff, decide_eq_true_iff, matchesWord_iff, and_mask_FFFF]

end Sys2Proof
end

