-- ==== Sys2Proof/Laws/State.lean ====
section
/-! SUPPORT. One lemma per field per update of the state, true by rfl, so that no proof unfolds a record update. -/

namespace Sys2Proof.Machine

variable (s : State)

/-! ### setV -/

@[simp] theorem State.setV_mem (r : Reg) (b : Byte) : (s.setV r b).mem = s.mem := rfl
@[simp] theorem State.setV_v (r : Reg) (b : Byte) : (s.setV r b).v = s.v.set r.toNat b r.isLt := rfl
@[simp] theorem State.setV_i (r : Reg) (b : Byte) : (s.setV r b).i = s.i := rfl
@[simp] theorem State.setV_pc (r : Reg) (b : Byte) : (s.setV r b).pc = s.pc := rfl
@[simp] theorem State.setV_sp (r : Reg) (b : Byte) : (s.setV r b).sp = s.sp := rfl
@[simp] theorem State.setV_stack (r : Reg) (b : Byte) : (s.setV r b).stack = s.stack := rfl
@[simp] theorem State.setV_dt (r : Reg) (b : Byte) : (s.setV r b).dt = s.dt := rfl
@[simp] theorem State.setV_st (r : Reg) (b : Byte) : (s.setV r b).st = s.st := rfl
@[simp] theorem State.setV_disp (r : Reg) (b : Byte) : (s.setV r b).disp = s.disp := rfl
@[simp] theorem State.setV_redraw (r : Reg) (b : Byte) : (s.setV r b).redraw = s.redraw := rfl
@[simp] theorem State.setV_key (r : Reg) (b : Byte) : (s.setV r b).key = s.key := rfl
@[simp] theorem State.setV_opcode (r : Reg) (b : Byte) : (s.setV r b).opcode = s.opcode := rfl
@[simp] theorem State.setV_romLen (r : Reg) (b : Byte) : (s.setV r b).romLen = s.romLen := rfl
@[simp] theorem State.setV_run (r : Reg) (b : Byte) : (s.setV r b).run = s.run := rfl
@[simp] theorem State.setV_params (r : Reg) (b : Byte) : (s.setV r b).params = s.params := rfl
@[simp] theorem State.setV_draws (r : Reg) (b : Byte) : (s.setV r b).draws = s.draws := rfl

/-! ### setI -/

@[simp] theorem State.setI_mem (w : Word) : (s.setI w).mem = s.mem := rfl
@[simp] theorem State.setI_v (w : Word) : (s.setI w).v = s.v := rfl
@[simp] theorem State.setI_i (w : Word) : (s.setI w).i = w := rfl
@[simp] theorem State.setI_pc (w : Word) : (s.setI w).pc = s.pc := rfl
@[simp] theorem State.setI_sp (w : Word) : (s.setI w).sp = s.sp := rfl
@[simp] theorem State.setI_stack (w : Word) : (s.setI w).stack = s.stack := rfl
@[simp] theorem State.setI_dt (w : Word) : (s.setI w).dt = s.dt := rfl
@[simp] theorem State.setI_st (w : Word) : (s.setI w).st = s.st := rfl
@[simp] theorem State.setI_disp (w : Word) : (s.setI w).disp = s.disp := rfl
@[simp] theorem State.setI_redraw (w : Word) : (s.setI w).redraw = s.redraw := rfl
@[simp] theorem State.setI_key (w : Word) : (s.setI w).key = s.key := rfl
@[simp] theorem State.setI_opcode (w : Word) : (s.setI w).opcode = s.opcode := rfl
@[simp] theorem State.setI_romLen (w : Word) : (s.setI w).romLen = s.romLen := rfl
@[simp] theorem State.setI_run (w : Word) : (s.setI w).run = s.run := rfl
@[simp] theorem State.setI_params (w : Word) : (s.setI w).params = s.params := rfl
@[simp] theorem State.setI_draws (w : Word) : (s.setI w).draws = s.draws := rfl
@[simp] theorem State.setI_getV (w : Word) (q : Reg) : (s.setI w).getV q = s.getV q := rfl

/-! ### setPc -/

@[simp] theorem State.setPc_mem (w : Word) : (s.setPc w).mem = s.mem := rfl
@[simp] theorem State.setPc_v (w : Word) : (s.setPc w).v = s.v := rfl
@[simp] theorem State.setPc_i (w : Word) : (s.setPc w).i = s.i := rfl
@[simp] theorem State.setPc_pc (w : Word) : (s.setPc w).pc = w := rfl
@[simp] theorem State.setPc_sp (w : Word) : (s.setPc w).sp = s.sp := rfl
@[simp] theorem State.setPc_stack (w : Word) : (s.setPc w).stack = s.stack := rfl
@[simp] theorem State.setPc_dt (w : Word) : (s.setPc w).dt = s.dt := rfl
@[simp] theorem State.setPc_st (w : Word) : (s.setPc w).st = s.st := rfl
@[simp] theorem State.setPc_disp (w : Word) : (s.setPc w).disp = s.disp := rfl
@[simp] theorem State.setPc_redraw (w : Word) : (s.setPc w).redraw = s.redraw := rfl
@[simp] theorem State.setPc_key (w : Word) : (s.setPc w).key = s.key := rfl
@[simp] theorem State.setPc_opcode (w : Word) : (s.setPc w).opcode = s.opcode := rfl
@[simp] theorem State.setPc_romLen (w : Word) : (s.setPc w).romLen = s.romLen := rfl
@[simp] theorem State.setPc_run (w : Word) : (s.setPc w).run = s.run := rfl
@[simp] theorem State.setPc_params (w : Word) : (s.setPc w).params = s.params := rfl
@[simp] theorem State.setPc_draws (w : Word) : (s.setPc w).draws = s.draws := rfl
@[simp] theorem State.setPc_getV (w : Word) (q : Reg) : (s.setPc w).getV q = s.getV q := rfl

/-! ### setDt -/

@[simp] theorem State.setDt_mem (b : Byte) : (s.setDt b).mem = s.mem := rfl
@[simp] theorem State.setDt_v (b : Byte) : (s.setDt b).v = s.v := rfl
@[simp] theorem State.setDt_i (b : Byte) : (s.setDt b).i = s.i := rfl
@[simp] theorem State.setDt_pc (b : Byte) : (s.setDt b).pc = s.pc := rfl
@[simp] theorem State.setDt_sp (b : Byte) : (s.setDt b).sp = s.sp := rfl
@[simp] theorem State.setDt_stack (b : Byte) : (s.setDt b).stack = s.stack := rfl
@[simp] theorem State.setDt_dt (b : Byte) : (s.setDt b).dt = b := rfl
@[simp] theorem State.setDt_st (b : Byte) : (s.setDt b).st = s.st := rfl
@[simp] theorem State.setDt_disp (b : Byte) : (s.setDt b).disp = s.disp := rfl
@[simp] theorem State.setDt_redraw (b : Byte) : (s.setDt b).redraw = s.redraw := rfl
@[simp] theorem State.setDt_key (b : Byte) : (s.setDt b).key = s.key := rfl
@[simp] theorem State.setDt_opcode (b : Byte) : (s.setDt b).opcode = s.opcode := rfl
@[simp] theorem State.setDt_romLen (b : Byte) : (s.setDt b).romLen = s.romLen := rfl
@[simp] theorem State.setDt_run (b : Byte) : (s.setDt b).run = s.run := rfl
@[simp] theorem State.setDt_params (b : Byte) : (s.setDt b).params = s.params := rfl
@[simp] theorem State.setDt_draws (b : Byte) : (s.setDt b).draws = s.draws := rfl
@[simp] theorem State.setDt_getV (b : Byte) (q : Reg) : (s.setDt b).getV q = s.getV q := rfl

/-! ### setSt -/

@[simp] theorem State.setSt_mem (b : Byte) : (s.setSt b).mem = s.mem := rfl
@[simp] theorem State.setSt_v (b : Byte) : (s.setSt b).v = s.v := rfl
@[simp] theorem State.setSt_i (b : Byte) : (s.setSt b).i = s.i := rfl
@[simp] theorem State.setSt_pc (b : Byte) : (s.setSt b).pc = s.pc := rfl
@[simp] theorem State.setSt_sp (b : Byte) : (s.setSt b).sp = s.sp := rfl
@[simp] theorem State.setSt_stack (b : Byte) : (s.setSt b).stack = s.stack := rfl
@[simp] theorem State.setSt_dt (b : Byte) : (s.setSt b).dt = s.dt := rfl
@[simp] theorem State.setSt_st (b : Byte) : (s.setSt b).st = b := rfl
@[simp] theorem State.setSt_disp (b : Byte) : (s.setSt b).disp = s.disp := rfl
@[simp] theorem State.setSt_redraw (b : Byte) : (s.setSt b).redraw = s.redraw := rfl
@[simp] theorem State.setSt_key (b : Byte) : (s.setSt b).key = s.key := rfl
@[simp] theorem State.setSt_opcode (b : Byte) : (s.setSt b).opcode = s.opcode := rfl
@[simp] theorem State.setSt_romLen (b : Byte) : (s.setSt b).romLen = s.romLen := rfl
@[simp] theorem State.setSt_run (b : Byte) : (s.setSt b).run = s.run := rfl
@[simp] theorem State.setSt_params (b : Byte) : (s.setSt b).params = s.params := rfl
@[simp] theorem State.setSt_draws (b : Byte) : (s.setSt b).draws = s.draws := rfl
@[simp] theorem State.setSt_getV (b : Byte) (q : Reg) : (s.setSt b).getV q = s.getV q := rfl

/-! ### setMem -/

@[simp] theorem State.setMem_mem (m : Memory) : (s.setMem m).mem = m := rfl
@[simp] theorem State.setMem_v (m : Memory) : (s.setMem m).v = s.v := rfl
@[simp] theorem State.setMem_i (m : Memory) : (s.setMem m).i = s.i := rfl
@[simp] theorem State.setMem_pc (m : Memory) : (s.setMem m).pc = s.pc := rfl
@[simp] theorem State.setMem_sp (m : Memory) : (s.setMem m).sp = s.sp := rfl
@[simp] theorem State.setMem_stack (m : Memory) : (s.setMem m).stack = s.stack := rfl
@[simp] theorem State.setMem_dt (m : Memory) : (s.setMem m).dt = s.dt := rfl
@[simp] theorem State.setMem_st (m : Memory) : (s.setMem m).st = s.st := rfl
@[simp] theorem State.setMem_disp (m : Memory) : (s.setMem m).disp = s.disp := rfl
@[simp] theorem State.setMem_redraw (m : Memory) : (s.setMem m).redraw = s.redraw := rfl
@[simp] theorem State.setMem_key (m : Memory) : (s.setMem m).key = s.key := rfl
@[simp] theorem State.setMem_opcode (m : Memory) : (s.setMem m).opcode = s.opcode := rfl
@[simp] theorem State.setMem_romLen (m : Memory) : (s.setMem m).romLen = s.romLen := rfl
@[simp] theorem State.setMem_run (m : Memory) : (s.setMem m).run = s.run := rfl
@[simp] theorem State.setMem_params (m : Memory) : (s.setMem m).params = s.params := rfl
@[simp] theorem State.setMem_draws (m : Memory) : (s.setMem m).draws = s.draws := rfl
@[simp] theorem State.setMem_getV (m : Memory) (q : Reg) : (s.setMem m).getV q = s.getV q := rfl

/-! ### setDisp -/

@[simp] theorem State.setDisp_mem (d : Display) : (s.setDisp d).mem = s.mem := rfl
@[simp] theorem State.setDisp_v (d : Display) : (s.setDisp d).v = s.v := rfl
@[simp] theorem State.setDisp_i (d : Display) : (s.setDisp d).i = s.i := rfl
@[simp] theorem State.setDisp_pc (d : Display) : (s.setDisp d).pc = s.pc := rfl
@[simp] theorem State.setDisp_sp (d : Display) : (s.setDisp d).sp = s.sp := rfl
@[simp] theorem State.setDisp_stack (d : Display) : (s.setDisp d).stack = s.stack := rfl
@[simp] theorem State.setDisp_dt (d : Display) : (s.setDisp d).dt = s.dt := rfl
@[simp] theorem State.setDisp_st (d : Display) : (s.setDisp d).st = s.st := rfl
@[simp] theorem State.setDisp_disp (d : Display) : (s.setDisp d).disp = d := rfl
@[simp] theorem State.setDisp_redraw (d : Display) : (s.setDisp d).redraw = s.redraw := rfl
@[simp] theorem State.setDisp_key (d : Display) : (s.setDisp d).key = s.key := rfl
@[simp] theorem State.setDisp_opcode (d : Display) : (s.setDisp d).opcode = s.opcode := rfl
@[simp] theorem State.setDisp_romLen (d : Display) : (s.setDisp d).romLen = s.romLen := rfl
@[simp] theorem State.setDisp_run (d : Display) : (s.setDisp d).run = s.run := rfl
@[simp] theorem State.setDisp_params (d : Display) : (s.setDisp d).params = s.params := rfl
@[simp] theorem State.setDisp_draws (d : Display) : (s.setDisp d).draws = s.draws := rfl
@[simp] theorem State.setDisp_getV (d : Display) (q : Reg) : (s.setDisp d).getV q = s.getV q := rfl

/-! ### setRedraw -/

@[simp] theorem State.setRedraw_mem (b : Bool) : (s.setRedraw b).mem = s.mem := rfl
@[simp] theorem State.setRedraw_v (b : Bool) : (s.setRedraw b).v = s.v := rfl
@[simp] theorem State.setRedraw_i (b : Bool) : (s.setRedraw b).i = s.i := rfl
@[simp] theorem State.setRedraw_pc (b : Bool) : (s.setRedraw b).pc = s.pc := rfl
@[simp] theorem State.setRedraw_sp (b : Bool) : (s.setRedraw b).sp = s.sp := rfl
@[simp] theorem State.setRedraw_stack (b : Bool) : (s.setRedraw b).stack = s.stack := rfl
@[simp] theorem State.setRedraw_dt (b : Bool) : (s.setRedraw b).dt = s.dt := rfl
@[simp] theorem State.setRedraw_st (b : Bool) : (s.setRedraw b).st = s.st := rfl
@[simp] theorem State.setRedraw_disp (b : Bool) : (s.setRedraw b).disp = s.disp := rfl
@[simp] theorem State.setRedraw_redraw (b : Bool) : (s.setRedraw b).redraw = b := rfl
@[simp] theorem State.setRedraw_key (b : Bool) : (s.setRedraw b).key = s.key := rfl
@[simp] theorem State.setRedraw_opcode (b : Bool) : (s.setRedraw b).opcode = s.opcode := rfl
@[simp] theorem State.setRedraw_romLen (b : Bool) : (s.setRedraw b).romLen = s.romLen := rfl
@[simp] theorem State.setRedraw_run (b : Bool) : (s.setRedraw b).run = s.run := rfl
@[simp] theorem State.setRedraw_params (b : Bool) : (s.setRedraw b).params = s.params := rfl
@[simp] theorem State.setRedraw_draws (b : Bool) : (s.setRedraw b).draws = s.draws := rfl
@[simp] theorem State.setRedraw_getV (b : Bool) (q : Reg) : (s.setRedraw b).getV q = s.getV q := rfl

/-! ### setOpcode -/

@[simp] theorem State.setOpcode_mem (w : Word) : (s.setOpcode w).mem = s.mem := rfl
@[simp] theorem State.setOpcode_v (w : Word) : (s.setOpcode w).v = s.v := rfl
@[simp] theorem State.setOpcode_i (w : Word) : (s.setOpcode w).i = s.i := rfl
@[simp] theorem State.setOpcode_pc (w : Word) : (s.setOpcode w).pc = s.pc := rfl
@[simp] theorem State.setOpcode_sp (w : Word) : (s.setOpcode w).sp = s.sp := rfl
@[simp] theorem State.setOpcode_stack (w : Word) : (s.setOpcode w).stack = s.stack := rfl
@[simp] theorem State.setOpcode_dt (w : Word) : (s.setOpcode w).dt = s.dt := rfl
@[simp] theorem State.setOpcode_st (w : Word) : (s.setOpcode w).st = s.st := rfl
@[simp] theorem State.setOpcode_disp (w : Word) : (s.setOpcode w).disp = s.disp := rfl
@[simp] theorem State.setOpcode_redraw (w : Word) : (s.setOpcode w).redraw = s.redraw := rfl
@[simp] theorem State.setOpcode_key (w : Word) : (s.setOpcode w).key = s.key := rfl
@[simp] theorem State.setOpcode_opcode (w : Word) : (s.setOpcode w).opcode = w := rfl
@[simp] theorem State.setOpcode_romLen (w : Word) : (s.setOpcode w).romLen = s.romLen := rfl
@[simp] theorem State.setOpcode_run (w : Word) : (s.setOpcode w).run = s.run := rfl
@[simp] theorem State.setOpcode_params (w : Word) : (s.setOpcode w).params = s.params := rfl
@[simp] theorem State.setOpcode_draws (w : Word) : (s.setOpcode w).draws = s.draws := rfl
@[simp] theorem State.setOpcode_getV (w : Word) (q : Reg) : (s.setOpcode w).getV q = s.getV q := rfl

/-! ### setRun -/

@[simp] theorem State.setRun_mem (r : RunState) : (s.setRun r).mem = s.mem := rfl
@[simp] theorem State.setRun_v (r : RunState) : (s.setRun r).v = s.v := rfl
@[simp] theorem State.setRun_i (r : RunState) : (s.setRun r).i = s.i := rfl
@[simp] theorem State.setRun_pc (r : RunState) : (s.setRun r).pc = s.pc := rfl
@[simp] theorem State.setRun_sp (r : RunState) : (s.setRun r).sp = s.sp := rfl
@[simp] theorem State.setRun_stack (r : RunState) : (s.setRun r).stack = s.stack := rfl
@[simp] theorem State.setRun_dt (r : RunState) : (s.setRun r).dt = s.dt := rfl
@[simp] theorem State.setRun_st (r : RunState) : (s.setRun r).st = s.st := rfl
@[simp] theorem State.setRun_disp (r : RunState) : (s.setRun r).disp = s.disp := rfl
@[simp] theorem State.setRun_redraw (r : RunState) : (s.setRun r).redraw = s.redraw := rfl
@[simp] theorem State.setRun_key (r : RunState) : (s.setRun r).key = s.key := rfl
@[simp] theorem State.setRun_opcode (r : RunState) : (s.setRun r).opcode = s.opcode := rfl
@[simp] theorem State.setRun_romLen (r : RunState) : (s.setRun r).romLen = s.romLen := rfl
@[simp] theorem State.setRun_run (r : RunState) : (s.setRun r).run = r := rfl
@[simp] theorem State.setRun_params (r : RunState) : (s.setRun r).params = s.params := rfl
@[simp] theorem State.setRun_draws (r : RunState) : (s.setRun r).draws = s.draws := rfl
@[simp] theorem State.setRun_getV (r : RunState) (q : Reg) : (s.setRun r).getV q = s.getV q := rfl

/-! ### countDraw -/

@[simp] theorem State.countDraw_mem : s.countDraw.mem = s.mem := rfl
@[simp] theorem State.countDraw_v : s.countDraw.v = s.v := rfl
@[simp] theorem State.countDraw_i : s.countDraw.i = s.i := rfl
@[simp] theorem State.countDraw_pc : s.countDraw.pc = s.pc := rfl
@[simp] theorem State.countDraw_sp : s.countDraw.sp = s.sp := rfl
@[simp] theorem State.countDraw_stack : s.countDraw.stack = s.stack := rfl
@[simp] theorem State.countDraw_dt : s.countDraw.dt = s.dt := rfl
@[simp] theorem State.countDraw_st : s.countDraw.st = s.st := rfl
@[simp] theorem State.countDraw_disp : s.countDraw.disp = s.disp := rfl
@[simp] theorem State.countDraw_redraw : s.countDraw.redraw = s.redraw := rfl
@[simp] theorem State.countDraw_key : s.countDraw.key = s.key := rfl
@[simp] theorem State.countDraw_opcode : s.countDraw.opcode = s.opcode := rfl
@[simp] theorem State.countDraw_romLen : s.countDraw.romLen = s.romLen := rfl
@[simp] theorem State.countDraw_run : s.countDraw.run = s.run := rfl
@[simp] theorem State.countDraw_params : s.countDraw.params = s.params := rfl
@[simp] theorem State.countDraw_draws : s.countDraw.draws = s.draws + 1 := rfl
@[simp] theorem State.countDraw_getV (q : Reg) : s.countDraw.getV q = s.getV q := rfl

/-! ### advance -/

@[simp] theorem State.advance_mem : s.advance.mem = s.mem := rfl
@[simp] theorem State.advance_v : s.advance.v = s.v := rfl
@[simp] theorem State.advance_i : s.advance.i = s.i := rfl
@[simp] theorem State.advance_pc : s.advance.pc = s.pc + 2 := rfl
@[simp] theorem State.advance_sp : s.advance.sp = s.sp := rfl
@[simp] theorem State.advance_stack : s.advance.stack = s.stack := rfl
@[simp] theorem State.advance_dt : s.advance.dt = s.dt := rfl
@[simp] theorem State.advance_st : s.advance.st = s.st := rfl
@[simp] theorem State.advance_disp : s.advance.disp = s.disp := rfl
@[simp] theorem State.advance_redraw : s.advance.redraw = s.redraw := rfl
@[simp] theorem State.advance_key : s.advance.key = s.key := rfl
@[simp] theorem State.advance_opcode : s.advance.opcode = s.opcode := rfl
@[simp] theorem State.advance_romLen : s.advance.romLen = s.romLen := rfl
@[simp] theorem State.advance_run : s.advance.run = s.run := rfl
@[simp] theorem State.advance_params : s.advance.params = s.params := rfl
@[simp] theorem State.advance_draws : s.advance.draws = s.draws := rfl
@[simp] theorem State.advance_getV (q : Reg) : s.advance.getV q = s.getV q := rfl

/-! ### skipIf -/

@[simp] theorem State.skipIf_mem (c : Bool) : (s.skipIf c).mem = s.mem := rfl
@[simp] theorem State.skipIf_v (c : Bool) : (s.skipIf c).v = s.v := rfl
@[simp] theorem State.skipIf_i (c : Bool) : (s.skipIf c).i = s.i := rfl
@[simp] theorem State.skipIf_pc (c : Bool) : (s.skipIf c).pc = if c then s.pc + 4 else s.pc + 2 := rfl
@[simp] theorem State.skipIf_sp (c : Bool) : (s.skipIf c).sp = s.sp := rfl
@[simp] theorem State.skipIf_stack (c : Bool) : (s.skipIf c).stack = s.stack := rfl
@[simp] theorem State.skipIf_dt (c : Bool) : (s.skipIf c).dt = s.dt := rfl
@[simp] theorem State.skipIf_st (c : Bool) : (s.skipIf c).st = s.st := rfl
@[simp] theorem State.skipIf_disp (c : Bool) : (s.skipIf c).disp = s.disp := rfl
@[simp] theorem State.skipIf_redraw (c : Bool) : (s.skipIf c).redraw = s.redraw := rfl
@[simp] theorem State.skipIf_key (c : Bool) : (s.skipIf c).key = s.key := rfl
@[simp] theorem State.skipIf_opcode (c : Bool) : (s.skipIf c).opcode = s.opcode := rfl
@[simp] theorem State.skipIf_romLen (c : Bool) : (s.skipIf c).romLen = s.romLen := rfl
@[simp] theorem State.skipIf_run (c : Bool) : (s.skipIf c).run = s.run := rfl
@[simp] theorem State.skipIf_params (c : Bool) : (s.skipIf c).params = s.params := rfl
@[simp] theorem State.skipIf_draws (c : Bool) : (s.skipIf c).draws = s.draws := rfl
@[simp] theorem State.skipIf_getV (c : Bool) (q : Reg) : (s.skipIf c).getV q = s.getV q := rfl

/-! ### enterFault -/

@[simp] theorem State.enterFault_mem (c : FaultCause) : (s.enterFault c).mem = s.mem := rfl
@[simp] theorem State.enterFault_v (c : FaultCause) : (s.enterFault c).v = s.v := rfl
@[simp] theorem State.enterFault_i (c : FaultCause) : (s.enterFault c).i = s.i := rfl
@[simp] theorem State.enterFault_pc (c : FaultCause) : (s.enterFault c).pc = s.pc := rfl
@[simp] theorem State.enterFault_sp (c : FaultCause) : (s.enterFault c).sp = s.sp := rfl
@[simp] theorem State.enterFault_stack (c : FaultCause) : (s.enterFault c).stack = s.stack := rfl
@[simp] theorem State.enterFault_dt (c : FaultCause) : (s.enterFault c).dt = s.dt := rfl
@[simp] theorem State.enterFault_st (c : FaultCause) : (s.enterFault c).st = s.st := rfl
@[simp] theorem State.enterFault_disp (c : FaultCause) : (s.enterFault c).disp = s.disp := rfl
@[simp] theorem State.enterFault_redraw (c : FaultCause) : (s.enterFault c).redraw = s.redraw := rfl
@[simp] theorem State.enterFault_key (c : FaultCause) : (s.enterFault c).key = s.key := rfl
@[simp] theorem State.enterFault_opcode (c : FaultCause) : (s.enterFault c).opcode = s.opcode := rfl
@[simp] theorem State.enterFault_romLen (c : FaultCause) : (s.enterFault c).romLen = s.romLen := rfl
@[simp] theorem State.enterFault_run (c : FaultCause) : (s.enterFault c).run = .faulted { cause := c, opcode := s.opcode, pc := s.pc } := rfl
@[simp] theorem State.enterFault_params (c : FaultCause) : (s.enterFault c).params = s.params := rfl
@[simp] theorem State.enterFault_draws (c : FaultCause) : (s.enterFault c).draws = s.draws := rfl
@[simp] theorem State.enterFault_getV (c : FaultCause) (q : Reg) : (s.enterFault c).getV q = s.getV q := rfl

/-! ### push -/

@[simp] theorem State.push_mem (w : Word) (h : s.sp.toNat < 16) : (s.push w h).mem = s.mem := rfl
@[simp] theorem State.push_v (w : Word) (h : s.sp.toNat < 16) : (s.push w h).v = s.v := rfl
@[simp] theorem State.push_i (w : Word) (h : s.sp.toNat < 16) : (s.push w h).i = s.i := rfl
@[simp] theorem State.push_pc (w : Word) (h : s.sp.toNat < 16) : (s.push w h).pc = s.pc := rfl
@[simp] theorem State.push_sp (w : Word) (h : s.sp.toNat < 16) : (s.push w h).sp = s.sp + 1 := rfl
@[simp] theorem State.push_stack (w : Word) (h : s.sp.toNat < 16) : (s.push w h).stack = s.stack.set s.sp.toNat w h := rfl
@[simp] theorem State.push_dt (w : Word) (h : s.sp.toNat < 16) : (s.push w h).dt = s.dt := rfl
@[simp] theorem State.push_st (w : Word) (h : s.sp.toNat < 16) : (s.push w h).st = s.st := rfl
@[simp] theorem State.push_disp (w : Word) (h : s.sp.toNat < 16) : (s.push w h).disp = s.disp := rfl
@[simp] theorem State.push_redraw (w : Word) (h : s.sp.toNat < 16) : (s.push w h).redraw = s.redraw := rfl
@[simp] theorem State.push_key (w : Word) (h : s.sp.toNat < 16) : (s.push w h).key = s.key := rfl
@[simp] theorem State.push_opcode (w : Word) (h : s.sp.toNat < 16) : (s.push w h).opcode = s.opcode := rfl
@[simp] theorem State.push_romLen (w : Word) (h : s.sp.toNat < 16) : (s.push w h).romLen = s.romLen := rfl
@[simp] theorem State.push_run (w : Word) (h : s.sp.toNat < 16) : (s.push w h).run = s.run := rfl
@[simp] theorem State.push_params (w : Word) (h : s.sp.toNat < 16) : (s.push w h).params = s.params := rfl
@[simp] theorem State.push_draws (w : Word) (h : s.sp.toNat < 16) : (s.push w h).draws = s.draws := rfl
@[simp] theorem State.push_getV (w : Word) (h : s.sp.toNat < 16) (q : Reg) : (s.push w h).getV q = s.getV q := rfl

/-! ### popPc -/

@[simp] theorem State.popPc_mem (h : (s.sp - 1).toNat < 16) : (s.popPc h).mem = s.mem := rfl
@[simp] theorem State.popPc_v (h : (s.sp - 1).toNat < 16) : (s.popPc h).v = s.v := rfl
@[simp] theorem State.popPc_i (h : (s.sp - 1).toNat < 16) : (s.popPc h).i = s.i := rfl
@[simp] theorem State.popPc_pc (h : (s.sp - 1).toNat < 16) : (s.popPc h).pc = s.stack[(s.sp - 1).toNat] := rfl
@[simp] theorem State.popPc_sp (h : (s.sp - 1).toNat < 16) : (s.popPc h).sp = s.sp - 1 := rfl
@[simp] theorem State.popPc_stack (h : (s.sp - 1).toNat < 16) : (s.popPc h).stack = s.stack := rfl
@[simp] theorem State.popPc_dt (h : (s.sp - 1).toNat < 16) : (s.popPc h).dt = s.dt := rfl
@[simp] theorem State.popPc_st (h : (s.sp - 1).toNat < 16) : (s.popPc h).st = s.st := rfl
@[simp] theorem State.popPc_disp (h : (s.sp - 1).toNat < 16) : (s.popPc h).disp = s.disp := rfl
@[simp] theorem State.popPc_redraw (h : (s.sp - 1).toNat < 16) : (s.popPc h).redraw = s.redraw := rfl
@[simp] theorem State.popPc_key (h : (s.sp - 1).toNat < 16) : (s.popPc h).key = s.key := rfl
@[simp] theorem State.popPc_opcode (h : (s.sp - 1).toNat < 16) : (s.popPc h).opcode = s.opcode := rfl
@[simp] theorem State.popPc_romLen (h : (s.sp - 1).toNat < 16) : (s.popPc h).romLen = s.romLen := rfl
@[simp] theorem State.popPc_run (h : (s.sp - 1).toNat < 16) : (s.popPc h).run = s.run := rfl
@[simp] theorem State.popPc_params (h : (s.sp - 1).toNat < 16) : (s.popPc h).params = s.params := rfl
@[simp] theorem State.popPc_draws (h : (s.sp - 1).toNat < 16) : (s.popPc h).draws = s.draws := rfl
@[simp] theorem State.popPc_getV (h : (s.sp - 1).toNat < 16) (q : Reg) : (s.popPc h).getV q = s.getV q := rfl

/-! ### Register reads after register writes -/

@[simp] theorem State.getV_setV_self (r : Reg) (b : Byte) : (s.setV r b).getV r = b := by
  simp [State.getV, State.setV]

theorem State.getV_setV_ne {q r : Reg} (b : Byte) (h : q ≠ r) : (s.setV r b).getV q = s.getV q := by
  have h' : r.toNat ≠ q.toNat := fun e => h (BitVec.eq_of_toNat_eq e.symm)
  simp [State.getV, State.setV, Vector.getElem_set_ne _ _ h']

theorem State.getV_setV (q r : Reg) (b : Byte) : (s.setV r b).getV q = if q = r then b else s.getV q := by
  split
  · next h => subst h; simp
  · next h => exact s.getV_setV_ne b h

/-- The register file is what its reads say. -/
theorem State.v_eq_of_getV {s t : State} (h : ∀ r, t.getV r = s.getV r) : t.v = s.v := by
  apply Vector.ext
  intro k hk
  have e : k % 16 = k := Nat.mod_eq_of_lt hk
  simpa [State.getV, e] using h (BitVec.ofNat 4 k)

end Sys2Proof.Machine
end

