-- ==== Sys2Proof/Laws/Memory.lean ====
section
/-! SUPPORT. Memory: a read after a write, the canonical form kept by every operation, and equal memories being equal data. -/

namespace Sys2Proof.Machine

/-! ### The list of cells -/

theorem lookupCell_removeCell_self (cs : List Host.Cell) (a : Nat) : lookupCell (removeCell cs a) a = none := by
  induction cs with
  | nil => rfl
  | cons c cs ih =>
    by_cases h : c.1 = a
    · simpa [removeCell, h] using ih
    · simpa [removeCell, lookupCell, h] using ih

theorem lookupCell_removeCell_ne (cs : List Host.Cell) {a a' : Nat} (h : a' ≠ a) :
    lookupCell (removeCell cs a) a' = lookupCell cs a' := by
  induction cs with
  | nil => rfl
  | cons c cs ih =>
    by_cases hc : c.1 = a
    · have : a ≠ a' := fun e => h e.symm
      simpa [removeCell, lookupCell, hc, this] using ih
    · simp [removeCell, lookupCell, hc, ih]

theorem lookupCell_insertCell_self (cs : List Host.Cell) (a : Nat) (b : Byte) :
    lookupCell (insertCell cs a b) a = some b := by
  induction cs with
  | nil => simp [insertCell, lookupCell]
  | cons c cs ih =>
    unfold insertCell
    split
    · simp [lookupCell]
    · split
      · simp [lookupCell]
      · next h => simpa [lookupCell, h] using ih

theorem lookupCell_insertCell_ne (cs : List Host.Cell) {a a' : Nat} (b : Byte) (h : a' ≠ a) :
    lookupCell (insertCell cs a b) a' = lookupCell cs a' := by
  have h' : a ≠ a' := fun e => h e.symm
  induction cs with
  | nil => simp [insertCell, lookupCell, h']
  | cons c cs ih =>
    unfold insertCell
    split
    · simp [lookupCell, h']
    · split
      · next hc => simp [lookupCell, h', hc]
      · simp [lookupCell, ih]

theorem risingFrom_mono {lo lo' : Nat} (h : lo' ≤ lo) : ∀ {cs : List Host.Cell}, risingFrom lo cs = true → risingFrom lo' cs = true
  | [], _ => rfl
  | c :: cs, hr => by
    simp only [risingFrom, Bool.and_eq_true, decide_eq_true_eq] at hr ⊢
    exact ⟨Nat.le_trans h hr.1, hr.2⟩

theorem risingFrom_removeCell (a : Nat) : ∀ {cs : List Host.Cell} {lo : Nat}, risingFrom lo cs = true →
    risingFrom lo (removeCell cs a) = true
  | [], _, _ => rfl
  | c :: cs, lo, hr => by
    simp only [risingFrom, Bool.and_eq_true, decide_eq_true_eq] at hr
    by_cases h : c.1 = a
    · simpa [removeCell, h] using risingFrom_removeCell a (risingFrom_mono (by omega) hr.2)
    · simpa [removeCell, h, risingFrom, hr.1] using risingFrom_removeCell a hr.2

theorem risingFrom_insertCell (a : Nat) (b : Byte) : ∀ {cs : List Host.Cell} {lo : Nat}, lo ≤ a → risingFrom lo cs = true →
    risingFrom lo (insertCell cs a b) = true
  | [], _, hl, _ => by simp [insertCell, risingFrom, hl]
  | c :: cs, lo, hl, hr => by
    simp only [risingFrom, Bool.and_eq_true, decide_eq_true_eq] at hr
    unfold insertCell
    split
    · next h => simpa [risingFrom, hl, hr.2] using h
    · split
      · next _ h => simp [risingFrom, ← h, hr.1, hr.2]
      · next h1 h2 => simpa [risingFrom, hr.1] using risingFrom_insertCell a b (by omega) hr.2

theorem mem_removeCell {a : Nat} {c : Host.Cell} : ∀ {cs : List Host.Cell}, c ∈ removeCell cs a → c ∈ cs
  | d :: cs, h => by
    by_cases hd : d.1 = a
    · simp only [removeCell, hd, ↓reduceIte] at h
      exact List.mem_cons_of_mem _ (mem_removeCell h)
    · simp only [removeCell, hd, ↓reduceIte, List.mem_cons] at h
      exact h.elim (fun e => e ▸ List.mem_cons_self) fun h => List.mem_cons_of_mem _ (mem_removeCell h)

theorem mem_insertCell {a : Nat} {b : Byte} {c : Host.Cell} : ∀ {cs : List Host.Cell}, c ∈ insertCell cs a b → c = (a, b) ∨ c ∈ cs
  | [], h => by simpa [insertCell] using h
  | d :: cs, h => by
    unfold insertCell at h
    split at h
    · simpa using h
    · split at h
      · rcases List.mem_cons.mp h with h | h
        · exact .inl h
        · exact .inr (List.mem_cons_of_mem _ h)
      · rcases List.mem_cons.mp h with h | h
        · exact .inr (h ▸ List.mem_cons_self)
        · exact (mem_insertCell h).imp id (List.mem_cons_of_mem _)

theorem lookupCell_eq_none_of_lt {a : Nat} : ∀ {cs : List Host.Cell} {lo : Nat}, risingFrom lo cs = true → a < lo → lookupCell cs a = none
  | [], _, _, _ => rfl
  | c :: cs, lo, hr, h => by
    simp only [risingFrom, Bool.and_eq_true, decide_eq_true_eq] at hr
    have hc : c.1 ≠ a := by omega
    simpa [lookupCell, hc] using lookupCell_eq_none_of_lt hr.2 (by omega)

/-! ### Reads and writes -/

@[simp] theorem Memory.write_font (m : Memory) (a : Nat) (b : Byte) : (m.write a b).font = m.font := rfl

@[simp] theorem Memory.write_unlisted (m : Memory) (a : Nat) (b : Byte) (a' : Nat) :
    (m.write a b).unlisted a' = m.unlisted a' := rfl

/-- What a write does to the listed cells. -/
theorem Memory.cells_write (m : Memory) (a : Nat) (b : Byte) :
    (m.write a b).cells = if b = m.unlisted a then removeCell m.cells a else insertCell m.cells a b := rfl

theorem Memory.read_eq (m : Memory) (a : Nat) : m.read a = (lookupCell m.cells a).getD (m.unlisted a) := rfl

@[simp] theorem Memory.read_write_self (m : Memory) (a : Nat) (b : Byte) : (m.write a b).read a = b := by
  rw [Memory.read_eq, Memory.cells_write, Memory.write_unlisted]
  split
  · next h => simp [lookupCell_removeCell_self, h]
  · simp [lookupCell_insertCell_self]

theorem Memory.read_write_ne (m : Memory) {a a' : Nat} (b : Byte) (h : a' ≠ a) : (m.write a b).read a' = m.read a' := by
  rw [Memory.read_eq, Memory.cells_write, Memory.write_unlisted, Memory.read_eq]
  split
  · rw [lookupCell_removeCell_ne _ h]
  · rw [lookupCell_insertCell_ne _ b h]

theorem Memory.read_write (m : Memory) (a a' : Nat) (b : Byte) :
    (m.write a b).read a' = if a' = a then b else m.read a' := by
  split
  · next h => subst h; simp
  · next h => exact m.read_write_ne b h

/-! ### The canonical form -/

theorem Memory.wf_iff (m : Memory) :
    m.wf = true ↔ risingFrom 0 m.cells = true ∧ ∀ c ∈ m.cells, c.1 < 4096 ∧ c.2 ≠ m.unlisted c.1 := by
  simp [Memory.wf]

/-- A write to an address of memory keeps the canonical form. -/
theorem Memory.wf_write {m : Memory} (h : m.wf = true) {a : Nat} (ha : a < 4096) (b : Byte) : (m.write a b).wf = true := by
  rw [Memory.wf_iff] at h ⊢
  by_cases hb : b = m.unlisted a
  · have e : (m.write a b).cells = removeCell m.cells a := by simp [Memory.write, ← hb]
    rw [e]
    exact ⟨risingFrom_removeCell a h.1, fun c hc => h.2 c (mem_removeCell hc)⟩
  · have e : (m.write a b).cells = insertCell m.cells a b := by simp [Memory.write, hb]
    rw [e]
    refine ⟨risingFrom_insertCell a b (Nat.zero_le a) h.1, fun c hc => ?_⟩
    rcases mem_insertCell hc with rfl | hc
    · exact ⟨ha, hb⟩
    · exact h.2 c hc

/-- Memory with nothing listed is canonical. -/
@[simp] theorem Memory.wf_empty (font : FontTable) : Memory.wf { font := font, cells := [] } = true := rfl

theorem cells_eq_of_lookup : ∀ {cs ds : List Host.Cell} {lo : Nat}, risingFrom lo cs = true → risingFrom lo ds = true →
    (∀ a, lookupCell cs a = lookupCell ds a) → cs = ds
  | [], [], _, _, _, _ => rfl
  | [], d :: ds, _, _, _, h => by simpa [lookupCell] using h d.1
  | c :: cs, [], _, _, _, h => by simpa [lookupCell] using h c.1
  | c :: cs, d :: ds, lo, hc, hd, h => by
    simp only [risingFrom, Bool.and_eq_true, decide_eq_true_eq] at hc hd
    have hcd : c.1 = d.1 := by
      rcases Nat.lt_trichotomy c.1 d.1 with hl | he | hl
      · have hn := lookupCell_eq_none_of_lt (a := c.1) hd.2 (by omega)
        have hne : d.1 ≠ c.1 := by omega
        have := h c.1
        simp [lookupCell, hne, hn] at this
      · exact he
      · have hn := lookupCell_eq_none_of_lt (a := d.1) hc.2 (by omega)
        have hne : c.1 ≠ d.1 := by omega
        have := h d.1
        simp [lookupCell, hne, hn] at this
    have hv : c.2 = d.2 := by simpa [lookupCell, hcd] using h c.1
    have ht : cs = ds := by
      refine cells_eq_of_lookup (lo := c.1 + 1) hc.2 (hcd ▸ hd.2) fun a => ?_
      by_cases ha : c.1 = a
      · subst ha
        rw [lookupCell_eq_none_of_lt hc.2 (by omega), lookupCell_eq_none_of_lt hd.2 (by omega)]
      · have hda : d.1 ≠ a := hcd ▸ ha
        simpa [lookupCell, ha, hda] using h a
    exact (List.cons.injEq ..).mpr ⟨Prod.ext hcd hv, ht⟩

/-- The form is canonical: memories of one font that read alike are equal data. -/
theorem Memory.eq_of_read {m m' : Memory} (hm : m.wf = true) (hm' : m'.wf = true) (hf : m.font = m'.font)
    (h : ∀ a, m.read a = m'.read a) : m = m' := by
  obtain ⟨font, cs⟩ := m
  obtain ⟨font', ds⟩ := m'
  obtain rfl : font = font' := hf
  rw [Memory.wf_iff] at hm hm'
  have key : ∀ {xs : List Host.Cell} {a : Nat} {b : Byte}, lookupCell xs a = some b → (a, b) ∈ xs := by
    intro xs a b hx
    induction xs with
    | nil => simp [lookupCell] at hx
    | cons x xs ih =>
      by_cases hxa : x.1 = a
      · have : x.2 = b := by simpa [lookupCell, hxa] using hx
        exact List.mem_cons.mpr (.inl (Prod.ext hxa.symm this.symm))
      · exact List.mem_cons_of_mem _ (ih (by simpa [lookupCell, hxa] using hx))
  have hu : ∀ a, Memory.unlisted { font := font, cells := ds } a = Memory.unlisted { font := font, cells := cs } a := fun _ => rfl
  have : cs = ds := by
    refine cells_eq_of_lookup hm.1 hm'.1 fun a => ?_
    have ha := h a
    simp only [Memory.read] at ha
    rcases hc : lookupCell cs a with _ | b <;> rcases hd : lookupCell ds a with _ | b'
    · rfl
    · exact absurd ((show b' = Memory.unlisted { font := font, cells := cs } a by simpa [hc, hd] using ha.symm).trans (hu a).symm) (hm'.2 _ (key hd)).2
    · exact absurd ((show b = Memory.unlisted { font := font, cells := ds } a by simpa [hc, hd] using ha).trans (hu a)) (hm.2 _ (key hc)).2
    · simpa [hc, hd] using ha
  rw [this]

/-! ### Blocks of bytes -/

@[simp] theorem writeBytes_font : ∀ (m : Memory) (as : List Nat) (bs : List Byte), (writeBytes m as bs).font = m.font
  | _, [], _ => by simp [writeBytes]
  | _, _ :: _, [] => by simp [writeBytes]
  | m, a :: as, b :: bs => by simp [writeBytes, writeBytes_font (m.write a b) as bs]

@[simp] theorem writeBytes_unlisted (m : Memory) (as : List Nat) (bs : List Byte) (a : Nat) :
    (writeBytes m as bs).unlisted a = m.unlisted a := by
  simp [Memory.unlisted]

/-- An address that is not among those written reads as before. -/
theorem read_writeBytes_of_not_mem {a : Nat} : ∀ {as : List Nat} (m : Memory) (bs : List Byte), a ∉ as →
    (writeBytes m as bs).read a = m.read a
  | [], _, _, _ => by simp [writeBytes]
  | _ :: _, _, [], _ => by simp [writeBytes]
  | a' :: as, m, b :: bs, h => by
    simp only [List.mem_cons, not_or] at h
    rw [writeBytes, read_writeBytes_of_not_mem _ bs h.2, m.read_write_ne b h.1]

/-- The k-th address written reads as the k-th byte, the addresses being different. -/
theorem read_writeBytes_getElem : ∀ {as : List Nat} (m : Memory) (bs : List Byte) {k : Nat} (hk : k < as.length) (hb : k < bs.length),
    as.Nodup → (writeBytes m as bs).read as[k] = bs[k]
  | a :: as, m, b :: bs, 0, _, _, hn => by
    rw [writeBytes]
    have := (List.nodup_cons.mp hn).1
    simpa using read_writeBytes_of_not_mem (m.write a b) bs this
  | a :: as, m, b :: bs, k + 1, hk, hb, hn => by
    simpa [writeBytes] using
      read_writeBytes_getElem (m.write a b) bs (k := k) (by simpa using hk) (by simpa using hb) (List.nodup_cons.mp hn).2

/-- Writing bytes to addresses of memory keeps the canonical form. -/
theorem wf_writeBytes : ∀ {as : List Nat} {m : Memory} (bs : List Byte), m.wf = true → (∀ a ∈ as, a < 4096) →
    (writeBytes m as bs).wf = true
  | [], _, _, hm, _ => by simpa [writeBytes] using hm
  | _ :: _, _, [], hm, _ => by simpa [writeBytes] using hm
  | a :: as, m, b :: bs, hm, h => by
    rw [writeBytes]
    exact wf_writeBytes bs (Memory.wf_write hm (h a List.mem_cons_self) b) fun a' ha' => h a' (List.mem_cons_of_mem _ ha')

end Sys2Proof.Machine
end

