-- ==== Sys2Proof/Laws/Ops.lean ====
section
/-! SUPPORT. One lemma per shared operation: block addresses and their checks, block loads and stores, guarded handlers, the
fetch, and what a placed word does. -/

namespace Sys2Proof.Machine

/-! ### Block addresses (R64) -/

@[simp] theorem length_blockAddrs (p : Params) (base : Word) (len : Nat) : (blockAddrs p base len).length = len := by
  simp [blockAddrs]

@[simp] theorem getElem_blockAddrs (p : Params) (base : Word) (len : Nat) {k : Nat} (h : k < (blockAddrs p base len).length) :
    (blockAddrs p base len)[k] = blockAddr p base k := by
  simp [blockAddrs]

theorem mem_blockAddrs {p : Params} {base : Word} {len a : Nat} :
    a ∈ blockAddrs p base len ↔ ∃ k, k < len ∧ blockAddr p base k = a := by
  simp [blockAddrs]

theorem blockAddr_unwrapped {p : Params} (h : p.addrWrap = .unwrapped) (base : Word) (k : Nat) :
    blockAddr p base k = base.toNat + k := by
  simp [blockAddr, wrapAddr, h]

theorem blockAddr_mod4096 {p : Params} (h : p.addrWrap = .mod4096) (base : Word) (k : Nat) :
    blockAddr p base k = (base.toNat + k) % 4096 := by
  simp [blockAddr, wrapAddr, h]

/-- Different bytes of a block of at most 4096 bytes lie at different addresses, wrapped or not. -/
theorem blockAddr_inj {p : Params} {base : Word} {j k : Nat} (hj : j < 4096) (hk : k < 4096)
    (h : blockAddr p base j = blockAddr p base k) : j = k := by
  cases hp : p.addrWrap with
  | unwrapped => simp only [blockAddr_unwrapped hp] at h; omega
  | mod4096 => simp only [blockAddr_mod4096 hp] at h; omega

theorem nodup_blockAddrs (p : Params) (base : Word) {len : Nat} (h : len ≤ 4096) : (blockAddrs p base len).Nodup := by
  rw [List.nodup_iff_injective_getElem]
  intro j k hjk
  have hj : j.val < len := by simpa using j.isLt
  have hk : k.val < len := by simpa using k.isLt
  exact Fin.ext (blockAddr_inj (by omega) (by omega) (by simpa using hjk))

/-! ### The checks (R62, R63, R70) -/

theorem readCheck_eq_none {a : Nat} : readCheck a = none ↔ a ≤ 0xFFF := by
  simp [readCheck]

theorem writeCheck_eq_none {p : Params} {a : Nat} : writeCheck p a = none ↔ WritableAddr p a := by
  unfold writeCheck WritableAddr
  cases p.protectReserved <;> by_cases h : a > 0xFFF <;> simp [h] <;> omega

theorem readOffence_eq_none {s : State} {len : Nat} : readOffence s len = none ↔ Readable s len := by
  simp [readOffence, List.findSome?_eq_none_iff, mem_blockAddrs, Readable, readCheck_eq_none]

theorem writeOffence_eq_none {s : State} {len : Nat} : writeOffence s len = none ↔ Writable s len := by
  simp [writeOffence, List.findSome?_eq_none_iff, mem_blockAddrs, Writable, writeCheck_eq_none]

/-- The first offending byte of a block is the one the check names. -/
theorem findSome?_blockAddrs {p : Params} {base : Word} {len k : Nat} {f : Nat → Option FaultCause} {c : FaultCause} (hk : k < len)
    (hbefore : ∀ j, j < k → f (blockAddr p base j) = none) (hc : f (blockAddr p base k) = some c) :
    (blockAddrs p base len).findSome? f = some c := by
  have hsplit : List.range len = List.range k ++ k :: (List.range' (k + 1) (len - (k + 1))) := by
    have h1 : List.range len = List.range' 0 k ++ List.range' (0 + 1 * k) (len - k) := by
      rw [List.range'_append, ← List.range_eq_range', Nat.add_sub_of_le (Nat.le_of_lt hk)]
    have h2 : List.range' k (len - k) = k :: List.range' (k + 1) (len - (k + 1)) := by
      obtain ⟨d, rfl⟩ : ∃ d, len = k + 1 + d := ⟨len - (k + 1), by omega⟩
      have : k + 1 + d - k = d + 1 := by omega
      simp [this, List.range'_succ]
    simpa [List.range_eq_range', h2] using h1
  have hnone : ((List.range k).map (blockAddr p base)).findSome? f = none := by
    simpa [List.findSome?_eq_none_iff] using hbefore
  simp [blockAddrs, hsplit, List.findSome?_append, hnone, hc]

/-! ### Guarded handlers -/

theorem guarded_none (s t : State) : guarded none s t = .next t := rfl

theorem guarded_some (c : FaultCause) (s t : State) : guarded (some c) s t = .next (s.enterFault c) := rfl

/-- A guarded handler answers its own effect or a fault entry, and nothing else. -/
theorem guarded_next_cases {o : Option FaultCause} {s t u : State} (h : guarded o s t = .next u) :
    (o = none ∧ u = t) ∨ (∃ c, o = some c ∧ u = s.enterFault c) := by
  cases o with
  | none => exact .inl ⟨rfl, by simpa [guarded] using h.symm⟩
  | some c => exact .inr ⟨c, rfl, by simpa [guarded, raise] using h.symm⟩

/-! ### Block loads and stores (R69) -/

@[simp] theorem length_loadBlock (s : State) (len : Nat) : (loadBlock s len).length = len := by
  simp [loadBlock]

theorem getElem_loadBlock (s : State) (len : Nat) {k : Nat} (h : k < (loadBlock s len).length) :
    (loadBlock s len)[k] = s.mem.read (blockAddr s.params s.i k) := by
  simp [loadBlock]

/-- A block store changes memory alone. -/
theorem storeBlock_eq (s : State) (bytes : List Byte) :
    storeBlock s bytes = s.setMem (writeBytes s.mem (blockAddrs s.params s.i bytes.length) bytes) := rfl

theorem storeBlock_read_getElem (s : State) (bytes : List Byte) (hl : bytes.length ≤ 4096) {k : Nat} (hk : k < bytes.length) :
    (storeBlock s bytes).mem.read (blockAddr s.params s.i k) = bytes[k] := by
  have hk' : k < (blockAddrs s.params s.i bytes.length).length := by simpa using hk
  have := read_writeBytes_getElem s.mem bytes hk' hk (nodup_blockAddrs s.params s.i hl)
  simpa [storeBlock] using this

theorem storeBlock_read_of_ne (s : State) (bytes : List Byte) {a : Nat} (h : ∀ k, k < bytes.length → blockAddr s.params s.i k ≠ a) :
    (storeBlock s bytes).mem.read a = s.mem.read a := by
  have : a ∉ blockAddrs s.params s.i bytes.length := by
    rw [mem_blockAddrs]
    rintro ⟨k, hk, e⟩
    exact h k hk e
  simpa [storeBlock] using read_writeBytes_of_not_mem s.mem bytes this

theorem wf_storeBlock {s : State} {bytes : List Byte} (hm : s.mem.wf = true) (hw : Writable s bytes.length) :
    (storeBlock s bytes).mem.wf = true := by
  refine wf_writeBytes bytes hm fun a ha => ?_
  obtain ⟨k, hk, rfl⟩ := mem_blockAddrs.mp ha
  exact Nat.lt_succ_of_le (hw k hk).1

/-! ### The registers of a block (R187, R188) -/

@[simp] theorem length_regBlock (s : State) (x : Reg) : (regBlock s x).length = x.toNat + 1 := by
  have : x.toNat < 16 := x.isLt
  simp [regBlock]
  omega

theorem getElem_regBlock (s : State) (x : Reg) {k : Nat} (h : k < (regBlock s x).length) :
    (regBlock s x)[k] = s.getV (BitVec.ofNat 4 k) := by
  have hk : k < 16 := by
    have : x.toNat < 16 := x.isLt
    simp at h
    omega
  simp [regBlock, State.getV, Nat.mod_eq_of_lt hk]

/-- A register load changes the registers alone. -/
theorem writeRegs_eq : ∀ (s : State) (k : Nat) (bs : List Byte), ∃ v, writeRegs s k bs = { s with v := v }
  | s, _, [] => ⟨s.v, rfl⟩
  | s, k, b :: bs => by
    obtain ⟨v, hv⟩ := writeRegs_eq (s.setV (BitVec.ofNat 4 k) b) (k + 1) bs
    exact ⟨v, by rw [writeRegs, hv]; rfl⟩

theorem getV_writeRegs : ∀ (bs : List Byte) (s : State) (k : Nat) (r : Reg), k + bs.length ≤ 16 →
    (writeRegs s k bs).getV r = if h : k ≤ r.toNat ∧ r.toNat - k < bs.length then bs[r.toNat - k] else s.getV r
  | [], s, k, r, _ => by simp [writeRegs]
  | b :: bs, s, k, r, hlen => by
    simp only [List.length_cons] at hlen
    rw [writeRegs, getV_writeRegs bs _ (k + 1) r (by omega), State.getV_setV]
    by_cases h1 : k + 1 ≤ r.toNat ∧ r.toNat - (k + 1) < bs.length
    · have h2 : k ≤ r.toNat ∧ r.toNat - k < (b :: bs).length := by simp; omega
      have h3 : r.toNat - k = (r.toNat - (k + 1)) + 1 := by omega
      rw [dif_pos h1, dif_pos h2]
      simp [h3]
    · rw [dif_neg h1]
      by_cases hr : r = BitVec.ofNat 4 k
      · have hk : r.toNat = k := by rw [hr, BitVec.toNat_ofNat]; omega
        simp [hr, show k % 16 = k by omega]
      · have hk : r.toNat ≠ k := fun e => hr (by rw [← e]; simp)
        have h2 : ¬ (k ≤ r.toNat ∧ r.toNat - k < (b :: bs).length) := by
          simp only [List.length_cons]; omega
        rw [dif_neg h2, if_neg hr]

/-! ### The key set (R34, R181) -/

theorem mem_pressedKeys {s : State} {k : Nat} : k ∈ s.pressedKeys ↔ k < 16 ∧ s.keyDown k = true := by
  simp [State.pressedKeys]

/-- The pressed keys are listed lowest first. -/
theorem pressedKeys_sorted (s : State) : s.pressedKeys.Pairwise (· < ·) :=
  List.Pairwise.filter _ List.pairwise_lt_range

/-! ### The fetch (R94) -/

/-- The fetch gives a word exactly when both its bytes are in memory, and then it is those two bytes, high byte first. -/
theorem fetch16_eq_ok {s : State} {w : Word} :
    fetch16 s = .ok w ↔ s.pc.toNat ≤ 0xFFF ∧ secondByteAddr s ≤ 0xFFF ∧
      w = wordOfBytes (s.mem.read s.pc.toNat) (s.mem.read (secondByteAddr s)) := by
  unfold fetch16
  split
  · simp; omega
  · split
    · simp; omega
    · simp only [Except.ok.injEq]
      constructor
      · rintro rfl; exact ⟨by omega, by omega, rfl⟩
      · rintro ⟨-, -, rfl⟩; rfl

theorem secondByteAddr_ne (s : State) : secondByteAddr s ≠ s.pc.toNat := by
  unfold secondByteAddr
  cases hp : s.params.addrWrap with
  | unwrapped => rw [blockAddr_unwrapped hp]; omega
  | mod4096 => rw [blockAddr_mod4096 hp]; omega

/-! ### Steps of a core that is not running (R96) -/

theorem step_of_running {s : State} (h : s.run = .running) : step s = runningStep s := by
  simp [step, cycle, h]

theorem step_of_not_running {s : State} (h : s.run ≠ .running) : step s = .next s := by
  unfold step cycle
  cases hr : s.run <;> simp_all

theorem runningStep_of_stop {s : State} (h : stopTest s = true) : runningStep s = .next (s.setRun .stopped) := by
  simp [runningStep, h]

theorem runningStep_of_fetches {s : State} {w : Word} (h : Fetches s w) :
    runningStep s = runDecoded (decodeWord s.params w) (s.setOpcode w) := by
  simp [runningStep, h.2.1, h.2.2]

/-- What the step of a running core does, whole: it stops, it faults at the fetch, at the decode, or it runs the decoded
instruction or the group-0 no-op and ends the step (R93 to R95). -/
theorem step_cases {s t : State} (hr : s.run = .running) (h : step s = .next t) :
    (stopTest s = true ∧ t = s.setRun .stopped) ∨
    (stopTest s = false ∧ ∃ c, fetch16 s = .error c ∧ t = s.enterFault c) ∨
    (∃ w, Fetches s w ∧
      ((∃ why, decodeWord s.params w = .illegal why ∧ t = (s.setOpcode w).enterFault .decode) ∨
       (decodeWord s.params w = .sysNop ∧ t = endOfStep (execSysNop (s.setOpcode w))) ∨
       (∃ i u, decodeWord s.params w = .instr i ∧ exec i (s.setOpcode w) = .next u ∧ t = endOfStep u))) := by
  rw [step_of_running hr] at h
  unfold runningStep at h
  split at h
  · next hs => exact .inl ⟨hs, by simpa using h.symm⟩
  · next hs =>
    have hs : stopTest s = false := by simpa using hs
    split at h
    · next c hc => exact .inr (.inl ⟨hs, c, hc, by simpa [raise] using h.symm⟩)
    · next w hw =>
      refine .inr (.inr ⟨w, ⟨hr, hs, hw⟩, ?_⟩)
      unfold runDecoded at h
      split at h
      · next i hi =>
        refine .inr (.inr ?_)
        unfold finishStep at h
        split at h
        · next u hu => exact ⟨i, u, hi, hu, by simpa using h.symm⟩
        · simp at h
        · simp at h
      · next hn => exact .inr (.inl ⟨hn, by simpa [finishStep] using h.symm⟩)
      · next why hwhy => exact .inl ⟨why, hwhy, by simpa [raise] using h.symm⟩

/-- A step that fetches a word carries out its verdict, the word being in `opcode`. -/
theorem step_of_fetches {s : State} {w : Word} (h : Fetches s w) : step s = runDecoded (decodeWord s.params w) (s.setOpcode w) := by
  rw [step_of_running h.1, runningStep_of_fetches h]

/-- A step runs one instruction at most. -/
theorem runs_unique {s : State} {i j : Instr} (hi : Runs s i) (hj : Runs s j) : i = j := by
  obtain ⟨w, hw, hi⟩ := hi
  obtain ⟨w', hw', hj⟩ := hj
  obtain rfl : w = w' := by simpa [hw.2.2] using hw'.2.2
  simpa [hi] using hj

/-! ### The tick and the end of a step (R211, R212) -/

theorem toNat_countDown (b : Byte) : (countDown b).toNat = b.toNat - 1 := by
  have := b.isLt
  unfold countDown
  split
  · next h => simp [h]
  · next h =>
    have hb : b.toNat ≠ 0 := fun e => h (BitVec.eq_of_toNat_eq e)
    rw [BitVec.toNat_sub, show (1 : Byte).toNat = 1 from rfl]
    omega

theorem endOfStep_of_running {s : State} (h : s.run = .running) : endOfStep s = timerTick s := by
  simp [endOfStep, h]

/-- The end of a step writes the timers alone. -/
theorem endOfStep_eq (s : State) : ∃ d e, endOfStep s = { s with dt := d, st := e } := by
  unfold endOfStep
  split <;> exact ⟨_, _, rfl⟩

@[simp] theorem endOfStep_mem (s : State) : (endOfStep s).mem = s.mem := by obtain ⟨_, _, h⟩ := endOfStep_eq s; rw [h]
@[simp] theorem endOfStep_v (s : State) : (endOfStep s).v = s.v := by obtain ⟨_, _, h⟩ := endOfStep_eq s; rw [h]
@[simp] theorem endOfStep_i (s : State) : (endOfStep s).i = s.i := by obtain ⟨_, _, h⟩ := endOfStep_eq s; rw [h]
@[simp] theorem endOfStep_pc (s : State) : (endOfStep s).pc = s.pc := by obtain ⟨_, _, h⟩ := endOfStep_eq s; rw [h]
@[simp] theorem endOfStep_sp (s : State) : (endOfStep s).sp = s.sp := by obtain ⟨_, _, h⟩ := endOfStep_eq s; rw [h]
@[simp] theorem endOfStep_stack (s : State) : (endOfStep s).stack = s.stack := by obtain ⟨_, _, h⟩ := endOfStep_eq s; rw [h]
@[simp] theorem endOfStep_disp (s : State) : (endOfStep s).disp = s.disp := by obtain ⟨_, _, h⟩ := endOfStep_eq s; rw [h]
@[simp] theorem endOfStep_redraw (s : State) : (endOfStep s).redraw = s.redraw := by obtain ⟨_, _, h⟩ := endOfStep_eq s; rw [h]
@[simp] theorem endOfStep_key (s : State) : (endOfStep s).key = s.key := by obtain ⟨_, _, h⟩ := endOfStep_eq s; rw [h]
@[simp] theorem endOfStep_opcode (s : State) : (endOfStep s).opcode = s.opcode := by obtain ⟨_, _, h⟩ := endOfStep_eq s; rw [h]
@[simp] theorem endOfStep_romLen (s : State) : (endOfStep s).romLen = s.romLen := by obtain ⟨_, _, h⟩ := endOfStep_eq s; rw [h]
@[simp] theorem endOfStep_run (s : State) : (endOfStep s).run = s.run := by obtain ⟨_, _, h⟩ := endOfStep_eq s; rw [h]
@[simp] theorem endOfStep_params (s : State) : (endOfStep s).params = s.params := by obtain ⟨_, _, h⟩ := endOfStep_eq s; rw [h]

/-! ### Results with a flag (R132) -/

theorem toNat_flagOf (c : Prop) [Decidable c] : (flagOf (decide c)).toNat = if c then 1 else 0 := by
  by_cases h : c <;> simp [flagOf, h]

theorem writeFlagAndReg_pc (x y : Reg) (flag result : Byte → Byte → Byte) (s : State) :
    (writeFlagAndReg x y flag result s).pc = s.pc := by
  unfold writeFlagAndReg
  split <;> rfl

/-- VF holds the flag of the operands at the start, unless VF is the destination and so written again. -/
theorem writeFlagAndReg_getV_vf {x : Reg} (h : x ≠ vf) (y : Reg) (flag result : Byte → Byte → Byte) (s : State) :
    (writeFlagAndReg x y flag result s).getV vf = flag (s.getV x) (s.getV y) := by
  unfold writeFlagAndReg
  split <;> simp [State.getV_setV_ne _ _ h.symm]

theorem writeFlagAndReg_getV_snapshot {s : State} (h : s.params.aluVfRead = .snapshot) (x y : Reg) (flag result : Byte → Byte → Byte) :
    (writeFlagAndReg x y flag result s).getV x = result (s.getV x) (s.getV y) := by
  simp [writeFlagAndReg, h]

theorem writeFlagAndReg_getV_reread {s : State} (h : s.params.aluVfRead = .reread) (x y : Reg) (flag result : Byte → Byte → Byte) :
    (writeFlagAndReg x y flag result s).getV x =
      result (if x = vf then flag (s.getV x) (s.getV y) else s.getV x) (if y = vf then flag (s.getV x) (s.getV y) else s.getV y) := by
  simp [writeFlagAndReg, h, State.getV_setV]

end Sys2Proof.Machine
end

