-- ==== Sys2Proof/Laws/Draw.lean ====
section
/-! SUPPORT. The drawing loop of DRW (44_group_D.md R160 to R163): one pixel toggled, where a sprite bit lands, and the loop as one
pass over the different pixels the sprite's 1 bits land on. -/

namespace Sys2Proof.Machine

/-! ### One pixel -/

theorem pixel_togglePixel (d : Display) (r q : Fin 32) (c e : Fin 64) :
    pixel (togglePixel d r c) q e = if q = r ∧ e = c then !pixel d r c else pixel d q e := by
  by_cases hq : q = r
  · subst hq
    by_cases he : e = c
    · subst he; simp [pixel, togglePixel]
    · have : c.val ≠ e.val := fun h => he (Fin.ext h.symm)
      simp [pixel, togglePixel, he, Vector.getElem_set_ne _ _ this]
  · have : r.val ≠ q.val := fun h => hq (Fin.ext h.symm)
    simp [pixel, togglePixel, hq, Vector.getElem_set_ne _ _ this]

/-- Displays with the same pixels are equal. -/
theorem display_ext {d d' : Display} (h : ∀ r c, pixel d r c = pixel d' r c) : d = d' := by
  apply Vector.ext
  intro r hr
  apply Vector.ext
  intro c hc
  exact h ⟨r, hr⟩ ⟨c, hc⟩

@[simp] theorem pixel_blankDisplay (r : Fin 32) (c : Fin 64) : pixel blankDisplay r c = false := by
  simp [pixel, blankDisplay]

/-! ### Where a sprite bit lands (R162) -/

theorem place_eq_some {e : DrawEdge} {x0 y0 : Byte} {k b : Nat} {r : Fin 32} {c : Fin 64} :
    place e x0 y0 k b = some (r, c) ↔ LandsOn e x0 y0 k b r c := by
  cases e with
  | wrap =>
    simp only [place, LandsOn, Option.some.injEq, Prod.mk.injEq, Fin.ext_iff]
    constructor <;> rintro ⟨h1, h2⟩ <;> exact ⟨h1.symm, h2.symm⟩
  | clip =>
    have hr := r.isLt
    have hc := c.isLt
    simp only [place, LandsOn]
    split
    · simp only [Option.some.injEq, Prod.mk.injEq, Fin.ext_iff]
      constructor <;> rintro ⟨h1, h2⟩ <;> exact ⟨h1.symm, h2.symm⟩
    · next h =>
      simp only [reduceCtorEq, false_iff]
      rintro ⟨h1, h2⟩
      exact h ⟨by omega, by omega⟩

/-- Bits of rows less than 32 apart, at offsets below 8, that land on one pixel are one bit: a sprite does not overlap itself. -/
theorem landsOn_inj {e : DrawEdge} {x0 y0 : Byte} {k k' b b' : Nat} {r : Fin 32} {c : Fin 64} (h : LandsOn e x0 y0 k b r c)
    (h' : LandsOn e x0 y0 k' b' r c) (hk : k < k' + 32) (hk' : k' < k + 32) (hb : b < 8) (hb' : b' < 8) : k = k' ∧ b = b' := by
  cases e <;> simp only [LandsOn] at h h' <;> omega

theorem spriteBit_iff {row : Byte} {b : Nat} : spriteBit row b = true ↔ row.toNat / 2 ^ (7 - b) % 2 = 1 := by
  simp [spriteBit, BitVec.getLsbD, Nat.testBit_eq_decide_div_mod_eq]

/-! ### The loop as one pass over pixels -/

/-- The pixels the 1 bits of a row land on. -/
def rowTargets (e : DrawEdge) (x0 y0 : Byte) (k : Nat) (row : Byte) : List (Fin 32 × Fin 64) :=
  (List.range 8).filterMap fun b => if spriteBit row b then place e x0 y0 k b else none

/-- The pixels the 1 bits of the rows from row k on land on. -/
def targets (e : DrawEdge) (x0 y0 : Byte) : Nat → List Byte → List (Fin 32 × Fin 64)
  | _, [] => []
  | k, row :: rows => rowTargets e x0 y0 k row ++ targets e x0 y0 (k + 1) rows

/-- One pixel of the pass: toggled, with a collision where it was 1. -/
def stamp (cv : Canvas) (p : Fin 32 × Fin 64) : Canvas :=
  (togglePixel cv.1 p.1 p.2, cv.2 || pixel cv.1 p.1 p.2)

theorem drawRow_eq_foldl (e : DrawEdge) (x0 y0 : Byte) (k : Nat) (row : Byte) (cv : Canvas) :
    drawRow e x0 y0 k row cv = (rowTargets e x0 y0 k row).foldl stamp cv := by
  unfold drawRow rowTargets
  rw [List.foldl_filterMap]
  congr 1
  funext cv b
  unfold drawBit
  split
  · cases place e x0 y0 k b <;> simp_all [stamp]
  · simp_all

theorem drawRows_eq_foldl (e : DrawEdge) (x0 y0 : Byte) : ∀ (k : Nat) (rows : List Byte) (cv : Canvas),
    drawRows e x0 y0 k rows cv = (targets e x0 y0 k rows).foldl stamp cv
  | _, [], _ => rfl
  | k, row :: rows, cv => by
    rw [drawRows, targets, List.foldl_append, drawRow_eq_foldl, drawRows_eq_foldl e x0 y0 (k + 1) rows]

theorem mem_rowTargets {e : DrawEdge} {x0 y0 : Byte} {k : Nat} {row : Byte} {r : Fin 32} {c : Fin 64} :
    (r, c) ∈ rowTargets e x0 y0 k row ↔ ∃ b, b < 8 ∧ spriteBit row b = true ∧ LandsOn e x0 y0 k b r c := by
  simp only [rowTargets, List.mem_filterMap, List.mem_range, ← place_eq_some]
  constructor
  · rintro ⟨b, hb, h⟩
    by_cases hs : spriteBit row b = true
    · exact ⟨b, hb, hs, by simpa [hs] using h⟩
    · simp [hs] at h
  · rintro ⟨b, hb, hs, h⟩
    exact ⟨b, hb, by simpa [hs] using h⟩

theorem mem_targets {e : DrawEdge} {x0 y0 : Byte} {r : Fin 32} {c : Fin 64} : ∀ {k : Nat} {rows : List Byte},
    (r, c) ∈ targets e x0 y0 k rows ↔
      ∃ j b, ∃ h : j < rows.length, b < 8 ∧ spriteBit rows[j] b = true ∧ LandsOn e x0 y0 (k + j) b r c
  | k, [] => by simp [targets]
  | k, row :: rows => by
    rw [targets, List.mem_append, mem_rowTargets, mem_targets]
    constructor
    · rintro (⟨b, hb, hs, hl⟩ | ⟨j, b, hj, hb, hs, hl⟩)
      · exact ⟨0, b, by simp, hb, by simpa using hs, by simpa using hl⟩
      · exact ⟨j + 1, b, by simpa using hj, hb, by simpa using hs, by rwa [show k + (j + 1) = k + 1 + j by omega]⟩
    · rintro ⟨j, b, hj, hb, hs, hl⟩
      cases j with
      | zero => exact .inl ⟨b, hb, by simpa using hs, by simpa using hl⟩
      | succ j =>
        exact .inr ⟨j, b, by simpa using hj, hb, by simpa using hs, by rwa [show k + 1 + j = k + (j + 1) by omega]⟩

theorem nodup_rowTargets (e : DrawEdge) (x0 y0 : Byte) (k : Nat) (row : Byte) : (rowTargets e x0 y0 k row).Nodup := by
  unfold rowTargets List.Nodup
  rw [List.pairwise_filterMap]
  refine List.Pairwise.imp_of_mem ?_ (List.nodup_range (n := 8))
  rintro b b' hb hb' hne ⟨r, c⟩ h q h' rfl
  simp only [List.mem_range] at hb hb'
  by_cases hs : spriteBit row b = true <;> by_cases hs' : spriteBit row b' = true <;> simp only [hs, hs', ↓reduceIte,
    reduceCtorEq, place_eq_some, Bool.false_eq_true] at h h'
  exact hne (landsOn_inj h h' (by omega) (by omega) hb hb').2

/-- The sprite's pixels are all different: it never overlaps itself (R160). -/
theorem nodup_targets (e : DrawEdge) (x0 y0 : Byte) : ∀ (k : Nat) (rows : List Byte), rows.length ≤ 32 →
    (targets e x0 y0 k rows).Nodup
  | _, [], _ => List.nodup_nil
  | k, row :: rows, h => by
    simp only [List.length_cons] at h
    refine List.nodup_append.mpr ⟨nodup_rowTargets e x0 y0 k row, nodup_targets e x0 y0 (k + 1) rows (by omega), ?_⟩
    rintro ⟨r, c⟩ h1 q h2 rfl
    obtain ⟨b, hb, -, hl⟩ := mem_rowTargets.mp h1
    obtain ⟨j, b', hj, hb', -, hl'⟩ := mem_targets.mp h2
    have := (landsOn_inj hl hl' (by omega) (by omega) hb hb').1
    omega

/-- A pass over different pixels toggles exactly those, and collides exactly where one of them was 1. -/
theorem foldl_stamp : ∀ {ps : List (Fin 32 × Fin 64)} (cv : Canvas), ps.Nodup →
    (∀ r c, pixel (ps.foldl stamp cv).1 r c = if (r, c) ∈ ps then !pixel cv.1 r c else pixel cv.1 r c) ∧
    ((ps.foldl stamp cv).2 = true ↔ cv.2 = true ∨ ∃ r c, (r, c) ∈ ps ∧ pixel cv.1 r c = true)
  | [], cv, _ => by simp
  | (r0, c0) :: ps, cv, hn => by
    obtain ⟨hnot, hn⟩ := List.nodup_cons.mp hn
    obtain ⟨ihp, ihc⟩ := foldl_stamp (stamp cv (r0, c0)) hn
    refine ⟨fun r c => ?_, ?_⟩
    · rw [List.foldl_cons, ihp r c]
      by_cases he : r = r0 ∧ c = c0
      · obtain ⟨rfl, rfl⟩ := he
        simp [hnot, stamp, pixel_togglePixel]
      · have : (r, c) ≠ (r0, c0) := fun h => he (Prod.mk.inj h)
        simp [stamp, pixel_togglePixel, he, this]
    · rw [List.foldl_cons, ihc]
      simp only [stamp, Bool.or_eq_true, pixel_togglePixel, List.mem_cons]
      constructor
      · rintro ((h | h) | ⟨r, c, hm, hp⟩)
        · exact .inl h
        · exact .inr ⟨r0, c0, .inl rfl, h⟩
        · have : ¬ (r = r0 ∧ c = c0) := by rintro ⟨rfl, rfl⟩; exact hnot hm
          exact .inr ⟨r, c, .inr hm, by simpa [this] using hp⟩
      · rintro (h | ⟨r, c, h | hm, hp⟩)
        · exact .inl (.inl h)
        · obtain ⟨rfl, rfl⟩ := Prod.mk.inj h
          exact .inl (.inr hp)
        · have : ¬ (r = r0 ∧ c = c0) := by rintro ⟨rfl, rfl⟩; exact hnot hm
          exact .inr ⟨r, c, hm, by simpa [this] using hp⟩

/-- The pixels a sprite's 1 bits land on are those it covers (R161, R162). -/
theorem mem_targets_iff_covers {s : State} {x y : Reg} {n : Nibble} {r : Fin 32} {c : Fin 64} :
    (r, c) ∈ targets s.params.drawEdge (s.getV x) (s.getV y) 0 (loadBlock s n.toNat) ↔ SpriteCovers s x y n r c := by
  rw [mem_targets]
  constructor
  · rintro ⟨k, b, hk, hb, hs, hl⟩
    refine ⟨k, b, by simpa using hk, hb, ?_, by simpa using hl⟩
    rw [spriteBit_iff, getElem_loadBlock] at hs
    exact hs
  · rintro ⟨k, b, hk, hb, hs, hl⟩
    refine ⟨k, b, by simpa using hk, hb, ?_, by simpa using hl⟩
    rw [spriteBit_iff, getElem_loadBlock]
    exact hs

/-- The loop of DRW toggles exactly the pixels the sprite covers, and collides exactly where one of them was 1. -/
theorem drawSprite_spec (x y : Reg) (n : Nibble) (s : State) :
    (∀ r c, SpriteCovers s x y n r c → pixel (drawSprite x y n s).1 r c = !pixel s.disp r c) ∧
    (∀ r c, ¬ SpriteCovers s x y n r c → pixel (drawSprite x y n s).1 r c = pixel s.disp r c) ∧
    ((drawSprite x y n s).2 = true ↔ ∃ r c, SpriteCovers s x y n r c ∧ pixel s.disp r c = true) := by
  have hlen : (loadBlock s n.toNat).length ≤ 32 := by
    have : n.toNat < 16 := n.isLt
    simp; omega
  obtain ⟨hp, hc⟩ := foldl_stamp (s.disp, false) (nodup_targets s.params.drawEdge (s.getV x) (s.getV y) 0 _ hlen)
  simp only [← drawRows_eq_foldl] at hp hc
  refine ⟨fun r c h => ?_, fun r c h => ?_, ?_⟩
  · exact (hp r c).trans (if_pos (mem_targets_iff_covers.mpr h))
  · exact (hp r c).trans (if_neg fun hm => h (mem_targets_iff_covers.mp hm))
  · simpa [drawSprite, mem_targets_iff_covers] using hc

end Sys2Proof.Machine
end

