-- ==== Sys2Proof/Laws/Exec.lean ====
section
/-! SUPPORT. What each meaning leaves unchanged, the ways memory and the stack can change, and where a handler does not answer a
next state. -/

namespace Sys2Proof.Machine

/-! ### Frames compose -/

theorem UnchangedBut.refl (regs : List Reg) (parts : List Part) (s : State) : UnchangedBut regs parts s s := by
  constructor <;> simp

theorem UnchangedBut.trans {regs : List Reg} {parts : List Part} {s t u : State} (h : UnchangedBut regs parts s t)
    (h' : UnchangedBut regs parts t u) : UnchangedBut regs parts s u where
  regs r hr := (h'.regs r hr).trans (h.regs r hr)
  index hp := (h'.index hp).trans (h.index hp)
  stack hp := ⟨(h'.stack hp).1.trans (h.stack hp).1, (h'.stack hp).2.trans (h.stack hp).2⟩
  delay hp := (h'.delay hp).trans (h.delay hp)
  sound hp := (h'.sound hp).trans (h.sound hp)
  screen hp := ⟨(h'.screen hp).1.trans (h.screen hp).1, (h'.screen hp).2.trans (h.screen hp).2⟩
  memory hp a := (h'.memory hp a).trans (h.memory hp a)
  draws hp := (h'.draws hp).trans (h.draws hp)
  key := h'.key.trans h.key
  opcode := h'.opcode.trans h.opcode
  romLen := h'.romLen.trans h.romLen
  run := h'.run.trans h.run
  params := h'.params.trans h.params
  font := h'.font.trans h.font

/-- Every handler may write PC. -/
theorem unchanged_setPc (regs : List Reg) (parts : List Part) (s : State) (w : Word) : UnchangedBut regs parts s (s.setPc w) := by
  constructor <;> simp

theorem unchanged_advance (regs : List Reg) (parts : List Part) (s : State) : UnchangedBut regs parts s s.advance :=
  unchanged_setPc regs parts s _

theorem unchanged_skipIf (regs : List Reg) (parts : List Part) (s : State) (c : Bool) : UnchangedBut regs parts s (s.skipIf c) :=
  unchanged_setPc regs parts s _

theorem unchanged_setV {regs : List Reg} {x : Reg} (hx : x ∈ regs) (parts : List Part) (s : State) (b : Byte) :
    UnchangedBut regs parts s (s.setV x b) := by
  constructor
  · exact fun r hr => s.getV_setV_ne b fun e => hr (e ▸ hx)
  all_goals simp

theorem unchanged_setI {parts : List Part} (h : Part.i ∈ parts) (regs : List Reg) (s : State) (w : Word) :
    UnchangedBut regs parts s (s.setI w) := by
  constructor <;> simp [h]

theorem unchanged_setDt {parts : List Part} (h : Part.dt ∈ parts) (regs : List Reg) (s : State) (b : Byte) :
    UnchangedBut regs parts s (s.setDt b) := by
  constructor <;> simp [h]

theorem unchanged_setSt {parts : List Part} (h : Part.st ∈ parts) (regs : List Reg) (s : State) (b : Byte) :
    UnchangedBut regs parts s (s.setSt b) := by
  constructor <;> simp [h]

theorem unchanged_setDisp {parts : List Part} (h : Part.screen ∈ parts) (regs : List Reg) (s : State) (d : Display) :
    UnchangedBut regs parts s (s.setDisp d) := by
  constructor <;> simp [h]

theorem unchanged_setRedraw {parts : List Part} (h : Part.screen ∈ parts) (regs : List Reg) (s : State) (b : Bool) :
    UnchangedBut regs parts s (s.setRedraw b) := by
  constructor <;> simp [h]

theorem unchanged_countDraw {parts : List Part} (h : Part.draws ∈ parts) (regs : List Reg) (s : State) :
    UnchangedBut regs parts s s.countDraw := by
  constructor <;> simp [h]

theorem unchanged_push {parts : List Part} (h : Part.stack ∈ parts) (regs : List Reg) (s : State) (w : Word)
    (hs : s.sp.toNat < 16) : UnchangedBut regs parts s (s.push w hs) := by
  constructor <;> simp [h]

theorem unchanged_popPc {parts : List Part} (h : Part.stack ∈ parts) (regs : List Reg) (s : State)
    (hs : (s.sp - 1).toNat < 16) : UnchangedBut regs parts s (s.popPc hs) := by
  constructor <;> simp [h]

theorem unchanged_storeBlock {parts : List Part} (h : Part.memory ∈ parts) (regs : List Reg) (s : State) (bs : List Byte) :
    UnchangedBut regs parts s (storeBlock s bs) := by
  constructor <;> simp [h, storeBlock]

theorem unchanged_writeRegs {regs : List Reg} (parts : List Part) : ∀ (s : State) (k : Nat) (bs : List Byte),
    (∀ j, k ≤ j → j < k + bs.length → BitVec.ofNat 4 j ∈ regs) → UnchangedBut regs parts s (writeRegs s k bs)
  | s, _, [], _ => UnchangedBut.refl regs parts s
  | s, k, b :: bs, h =>
    (unchanged_setV (h k (Nat.le_refl k) (by simp)) parts s b).trans
      (unchanged_writeRegs parts _ (k + 1) bs fun j h1 h2 => h j (by omega) (by simp only [List.length_cons]; omega))

theorem unchanged_writeFlagAndReg {regs : List Reg} {x : Reg} (hx : x ∈ regs) (hf : vf ∈ regs) (parts : List Part) (y : Reg)
    (flag result : Byte → Byte → Byte) (s : State) : UnchangedBut regs parts s (writeFlagAndReg x y flag result s) := by
  unfold writeFlagAndReg
  split <;> exact (unchanged_setV hf parts s _).trans (unchanged_setV hx parts _ _)

/-! ### The call stack -/

/-- CALL enters a fault or pushes the return address and jumps. -/
theorem execCall_cases {nnn : Addr} {s t : State} (h : execCall nnn s = .next t) :
    t = s.enterFault (.stackOverflow s.sp) ∨ ∃ hs : s.sp.toNat < 16, t = (s.push (s.pc + 2) hs).setPc (addrWord nnn) := by
  unfold execCall at h
  split at h
  · exact .inl (by simpa [raise] using h.symm)
  · split at h
    · next hs => exact .inr ⟨hs, by simpa using h.symm⟩
    · simp at h

/-- RET enters a fault or pops the return address. -/
theorem execRet_cases {s t : State} (h : execRet s = .next t) :
    t = s.enterFault (.stackUnderflow s.sp) ∨ ∃ hs : (s.sp - 1).toNat < 16, t = s.popPc hs := by
  unfold execRet at h
  split at h
  · exact .inl (by simpa [raise] using h.symm)
  · split at h
    · next hs => exact .inr ⟨hs, by simpa using h.symm⟩
    · simp at h

/-! ### The frame of each shape of handler: a fault entry, or the destinations alone -/

/-- What a handler that answers `t` from `s` may have done. -/
abbrev FaultOrFrame (regs : List Reg) (parts : List Part) (s t : State) : Prop :=
  (∃ c, t = s.enterFault c) ∨ UnchangedBut regs parts s t

theorem frame_of_next {regs : List Reg} {parts : List Part} {s t u : State} (hf : UnchangedBut regs parts s t)
    (h : (Host.Outcome.next t : Out) = .next u) : FaultOrFrame regs parts s u := by
  obtain rfl : t = u := by simpa using h
  exact .inr hf

theorem frame_of_guarded {regs : List Reg} {parts : List Part} {o : Option FaultCause} {s t u : State}
    (hf : UnchangedBut regs parts s t) (h : guarded o s t = .next u) : FaultOrFrame regs parts s u := by
  rcases guarded_next_cases h with ⟨-, rfl⟩ | ⟨c, -, rfl⟩
  · exact .inr hf
  · exact .inl ⟨c, rfl⟩

theorem writeReg_frame {x : Reg} {b : Byte} {s t : State} (h : writeReg x b s = .next t) : FaultOrFrame [x] [] s t :=
  frame_of_next ((unchanged_setV (by simp) [] s b).trans (unchanged_advance _ _ _)) h

theorem flagAlu_frame {x y : Reg} {flag result : Byte → Byte → Byte} {s t : State} (h : flagAlu x y flag result s = .next t) :
    FaultOrFrame [x, vf] [] s t :=
  frame_of_next ((unchanged_writeFlagAndReg (by simp) (by simp) [] y flag result s).trans (unchanged_advance _ _ _)) h

theorem skipOnKey_frame {x : Reg} {b : Bool} {s t : State} (h : skipOnKey x b s = .next t) : FaultOrFrame [] [] s t :=
  frame_of_guarded (unchanged_skipIf _ _ _ _) h

theorem execCls_frame {s t : State} (h : execCls s = .next t) : FaultOrFrame [] [.screen] s t :=
  frame_of_next (((unchanged_setDisp (by simp) _ _ _).trans (unchanged_setRedraw (by simp) _ _ _)).trans (unchanged_advance _ _ _)) h

theorem execRet_frame {s t : State} (h : execRet s = .next t) : FaultOrFrame [] [.stack] s t := by
  rcases execRet_cases h with rfl | ⟨hs, rfl⟩
  · exact .inl ⟨_, rfl⟩
  · exact .inr (unchanged_popPc (by simp) _ _ _)

theorem execCall_frame {nnn : Addr} {s t : State} (h : execCall nnn s = .next t) : FaultOrFrame [] [.stack] s t := by
  rcases execCall_cases h with rfl | ⟨hs, rfl⟩
  · exact .inl ⟨_, rfl⟩
  · exact .inr ((unchanged_push (by simp) _ _ _ _).trans (unchanged_setPc _ _ _ _))

theorem execRnd_frame {x : Reg} {kk : Byte} {s t : State} (h : execRnd x kk s = .next t) : FaultOrFrame [x] [.draws] s t :=
  frame_of_next (((unchanged_countDraw (by simp) _ s).trans (unchanged_setV (by simp) _ _ _)).trans (unchanged_advance _ _ _)) h

theorem execDrw_frame {x y : Reg} {n : Nibble} {s t : State} (h : execDrw x y n s = .next t) :
    FaultOrFrame [vf] [.screen] s t :=
  frame_of_guarded ((((unchanged_setDisp (by simp) _ _ _).trans (unchanged_setV (by simp) _ _ _)).trans
    (unchanged_setRedraw (by simp) _ _ _)).trans (unchanged_advance _ _ _)) h

theorem execLdI_frame {nnn : Addr} {s t : State} (h : execLdI nnn s = .next t) : FaultOrFrame [] [.i] s t :=
  frame_of_next ((unchanged_setI (by simp) _ _ _).trans (unchanged_advance _ _ _)) h

theorem execAddIVx_frame {x : Reg} {s t : State} (h : execAddIVx x s = .next t) : FaultOrFrame [] [.i] s t :=
  frame_of_next ((unchanged_setI (by simp) _ _ _).trans (unchanged_advance _ _ _)) h

theorem execLdFVx_frame {x : Reg} {s t : State} (h : execLdFVx x s = .next t) : FaultOrFrame [] [.i] s t :=
  frame_of_next ((unchanged_setI (by simp) _ _ _).trans (unchanged_advance _ _ _)) h

theorem execLdDtVx_frame {x : Reg} {s t : State} (h : execLdDtVx x s = .next t) : FaultOrFrame [] [.dt] s t :=
  frame_of_next ((unchanged_setDt (by simp) _ _ _).trans (unchanged_advance _ _ _)) h

theorem execLdStVx_frame {x : Reg} {s t : State} (h : execLdStVx x s = .next t) : FaultOrFrame [] [.st] s t :=
  frame_of_next ((unchanged_setSt (by simp) _ _ _).trans (unchanged_advance _ _ _)) h

theorem execLdVxK_frame {x : Reg} {s t : State} (h : execLdVxK x s = .next t) : FaultOrFrame [x] [.draws] s t := by
  unfold execLdVxK at h
  split at h
  · exact frame_of_next (UnchangedBut.refl _ _ s) h
  · have hc : UnchangedBut [x] [.draws] s (countKeyDraw s) := by
      unfold countKeyDraw
      split
      · exact UnchangedBut.refl _ _ s
      · exact unchanged_countDraw (by simp) _ _
    exact frame_of_next ((hc.trans (unchanged_setV (by simp) _ _ _)).trans (unchanged_advance _ _ _)) h

theorem execLdBVx_frame {x : Reg} {s t : State} (h : execLdBVx x s = .next t) : FaultOrFrame [] [.memory] s t :=
  frame_of_guarded ((unchanged_storeBlock (by simp) _ _ _).trans (unchanged_advance _ _ _)) h

theorem execLdMemVx_frame {x : Reg} {s t : State} (h : execLdMemVx x s = .next t) : FaultOrFrame [] [.memory] s t :=
  frame_of_guarded ((unchanged_storeBlock (by simp) _ _ _).trans (unchanged_advance _ _ _)) h

theorem execLdVxMem_frame {x : Reg} {s t : State} (h : execLdVxMem x s = .next t) :
    FaultOrFrame ((List.range (x.toNat + 1)).map (BitVec.ofNat 4)) [] s t := by
  refine frame_of_guarded ((unchanged_writeRegs _ _ 0 _ fun j _ hj => ?_).trans (unchanged_advance _ _ _)) h
  exact List.mem_map.mpr ⟨j, List.mem_range.mpr (by simpa using hj), rfl⟩

/-! ### Memory -/

/-- A handler leaves memory as it is, or stores a block of its length at I, where an instruction may write. -/
theorem exec_mem_cases {i : Instr} {s t : State} (h : exec i s = .next t) :
    t.mem = s.mem ∨ ∃ bs : List Byte, bs.length = storeLen i ∧ Writable s bs.length ∧ t.mem = (storeBlock s bs).mem := by
  have hg : ∀ {o : Option FaultCause} {u : State}, guarded o s u = .next t → u.mem = s.mem → t.mem = s.mem := by
    intro o u hgu hu
    rcases guarded_next_cases hgu with ⟨-, rfl⟩ | ⟨c, -, rfl⟩
    · exact hu
    · rfl
  have hw : ∀ {u : State} {bs : List Byte}, guarded (writeOffence s (storeLen i)) s u = .next t → bs.length = storeLen i →
      u.mem = (storeBlock s bs).mem →
      t.mem = s.mem ∨ ∃ bs : List Byte, bs.length = storeLen i ∧ Writable s bs.length ∧ t.mem = (storeBlock s bs).mem := by
    intro u bs hgu hl hu
    rcases guarded_next_cases hgu with ⟨ho, rfl⟩ | ⟨c, -, rfl⟩
    · exact .inr ⟨bs, hl, hl.symm ▸ writeOffence_eq_none.mp ho, hu⟩
    · exact .inl rfl
  have hn : ∀ {u : State}, (Host.Outcome.next u : Out) = .next t → u.mem = s.mem → t.mem = s.mem := by
    intro u hu hm
    obtain rfl : u = t := by simpa using hu
    exact hm
  have hfa : ∀ {x y : Reg} {f g : Byte → Byte → Byte}, flagAlu x y f g s = .next t → t.mem = s.mem := by
    intro x y f g hfa
    refine hn hfa ?_
    unfold writeFlagAndReg
    split <;> rfl
  cases i with
  | cls => exact .inl (hn h rfl)
  | ret =>
    simp only [exec, execRet] at h
    split at h
    · exact .inl (hn h rfl)
    · split at h
      · exact .inl (hn h rfl)
      · simp at h
  | jp nnn => exact .inl (hn h rfl)
  | call nnn =>
    simp only [exec, execCall] at h
    split at h
    · exact .inl (hn h rfl)
    · split at h
      · exact .inl (hn h rfl)
      · simp at h
  | seImm x kk => exact .inl (hn h rfl)
  | sneImm x kk => exact .inl (hn h rfl)
  | seReg x y => exact .inl (hn h rfl)
  | ldImm x kk => exact .inl (hn h rfl)
  | addImm x kk => exact .inl (hn h rfl)
  | ldReg x y => exact .inl (hn h rfl)
  | orReg x y => exact .inl (hn h rfl)
  | andReg x y => exact .inl (hn h rfl)
  | xorReg x y => exact .inl (hn h rfl)
  | addReg x y => exact .inl (hfa h)
  | subReg x y => exact .inl (hfa h)
  | shr x y => exact .inl (hfa h)
  | subn x y => exact .inl (hfa h)
  | shl x y => exact .inl (hfa h)
  | sneReg x y => exact .inl (hn h rfl)
  | ldI nnn => exact .inl (hn h rfl)
  | jpV0 nnn => exact .inl (hn h rfl)
  | rnd x kk => exact .inl (hn h rfl)
  | drw x y n => exact .inl (hg h rfl)
  | skp x => exact .inl (hg h rfl)
  | sknp x => exact .inl (hg h rfl)
  | ldVxDt x => exact .inl (hn h rfl)
  | ldVxK x =>
    simp only [exec, execLdVxK] at h
    split at h
    · exact .inl (hn h rfl)
    · refine .inl (hn h ?_)
      unfold countKeyDraw
      split <;> rfl
  | ldDtVx x => exact .inl (hn h rfl)
  | ldStVx x => exact .inl (hn h rfl)
  | addIVx x => exact .inl (hn h rfl)
  | ldFVx x => exact .inl (hn h rfl)
  | ldBVx x => exact hw (bs := bcdBytes (s.getV x)) h rfl rfl
  | ldMemVx x => exact hw (bs := regBlock s x) h (by simp [storeLen]) rfl
  | ldVxMem x =>
    refine .inl (hg h ?_)
    obtain ⟨v, hv⟩ := writeRegs_eq s 0 (loadBlock s (x.toNat + 1))
    rw [hv]; rfl

/-- A handler stores to no address but those of its block at I: every other byte reads as before. -/
theorem exec_mem_read {i : Instr} {s t : State} (h : exec i s = .next t) {a : Nat}
    (ha : ∀ k, k < storeLen i → blockAddr s.params s.i k ≠ a) : t.mem.read a = s.mem.read a := by
  rcases exec_mem_cases h with e | ⟨bs, hl, -, e⟩
  · rw [e]
  · rw [e]
    exact storeBlock_read_of_ne s bs (hl ▸ ha)

/-! ### A handler answers a next state -/

theorem guarded_answers (o : Option FaultCause) (s t : State) : ∃ u, guarded o s t = .next u := by
  cases o <;> exact ⟨_, rfl⟩

/-- With SP in its range no handler stops the model: it completes, stalls or enters a fault of the spec. -/
theorem exec_answers (i : Instr) {s : State} (hs : s.sp.toNat ≤ 16) : ∃ t, exec i s = .next t := by
  cases i with
  | ret =>
    simp only [exec, execRet]
    split
    · exact ⟨_, rfl⟩
    · next hne =>
      have h0 : s.sp.toNat ≠ 0 := fun e => hne (BitVec.eq_of_toNat_eq e)
      have e : (s.sp - 1).toNat = s.sp.toNat - 1 := by rw [BitVec.toNat_sub, show (1 : Byte).toNat = 1 from rfl]; omega
      rw [dif_pos (by omega)]
      exact ⟨_, rfl⟩
  | call nnn =>
    simp only [exec, execCall]
    split
    · exact ⟨_, rfl⟩
    · next hne =>
      have h0 : s.sp.toNat ≠ 16 := fun e => hne (BitVec.eq_of_toNat_eq e)
      rw [dif_pos (by omega)]
      exact ⟨_, rfl⟩
  | drw _ _ _ => exact guarded_answers _ _ _
  | skp _ => exact guarded_answers _ _ _
  | sknp _ => exact guarded_answers _ _ _
  | ldBVx _ => exact guarded_answers _ _ _
  | ldMemVx _ => exact guarded_answers _ _ _
  | ldVxMem _ => exact guarded_answers _ _ _
  | ldVxK _ =>
    simp only [exec, execLdVxK]
    split <;> exact ⟨_, rfl⟩
  | _ => exact ⟨_, rfl⟩

/-- With SP in its range no step stops the model. -/
theorem step_answers {s : State} (hs : s.sp.toNat ≤ 16) : ∃ t, step s = .next t := by
  by_cases hr : s.run = .running
  · rw [step_of_running hr]
    unfold runningStep
    split
    · exact ⟨_, rfl⟩
    · split
      · exact ⟨_, rfl⟩
      · next w _ =>
        unfold runDecoded
        split
        · next i _ =>
          obtain ⟨t, ht⟩ := exec_answers i (s := s.setOpcode w) hs
          exact ⟨_, by rw [ht]; rfl⟩
        · exact ⟨_, rfl⟩
        · exact ⟨_, rfl⟩
  · exact ⟨s, step_of_not_running hr⟩

end Sys2Proof.Machine
end

