-- ==== Sys2Proof/Tests/Slice0.lean ====
section
/-! SUPPORT. Tests: words written out from the opcode map, ill-formed terms refused, one step of each instruction (the expected values
are those of spec/95_test_vectors.md, whose number each test names, or a hand calculation from the rule it names), the host's
actions, and a witness for each statement that has hypotheses. -/

namespace Sys2Proof.Tests

open Sys2Proof Sys2Proof.Machine

/-! ### Helpers -/

/-- The next state of an outcome, if it is one. -/
def nextOf : Out → Option State
  | .next s => some s
  | .fault _ => none
  | .refused _ => none

/-- The state after reset with a word at PC = 0x200 and a ROM long enough that the step does not stop. -/
def ready (w : Nat) : State := { State.reset.withFetchWord 16 w with romLen := 0x100 }

/-- `ready` with other parameters. -/
def readyWith (p : Params) (w : Nat) : State := { ready w with params := p }

/-- The run state, PC and opcode after one step: what a fault or a stop leaves. -/
def endOf (s : State) : Option (RunState × Word × Word) :=
  (nextOf (step s)).map fun t => (t.run, t.pc, t.opcode)

/-- The run state of a fault raised at 0x200 by the word. -/
def faultAt200 (w : Word) (c : FaultCause) : RunState := .faulted { cause := c, opcode := w, pc := 0x200#16 }

/-- The parameters with ALU_VF_READ = reread. -/
def reread : Params := { Params.default with aluVfRead := .reread }

/-- The parameters with DRAW_EDGE = clip. -/
def clip : Params := { Params.default with drawEdge := .clip }

/-- The parameters with ADDR_WRAP = mod4096. -/
def wrapped : Params := { Params.default with addrWrap := .mod4096 }

/-- The parameters with SYS_MODE = nop. -/
def sysNops : Params := { Params.default with sysMode := .nop }

/-- The parameters with LOOSE_5_9 = true. -/
def loose : Params := { Params.default with loose59 := true }

/-- The parameters with STOP_CMP = gt. -/
def stopGt : Params := { Params.default with stopCmp := .gt }

/-- The parameters with KEY_SELECT = any. -/
def anyKey : Params := { Params.default with keySelect := .any }

/-- The parameters with PROTECT_RESERVED = false. -/
def unprotected : Params := { Params.default with protectReserved := false }

/-- A byte in memory. -/
def poke (s : State) (a : Nat) (b : Byte) : State := s.setMem (s.mem.write a b)

/-! ### Decoding: a word of every row of the opcode map (30_encoding.md R100), written out from its mask, match and fields -/

theorem test_decode_groups_0_1_2 : [0x00E0, 0x00EE, 0x1ABC, 0x2FED].map (decodeTableWord 16) =
    [some .cls, some .ret, some (.jp 0xABC#12), some (.call 0xFED#12)] := by decide

theorem test_decode_groups_3_4_5_9 : [0x3342, 0x4D42, 0x5120, 0x9A50].map (decodeTableWord 16) =
    [some (.seImm 3#4 0x42#8), some (.sneImm 13#4 0x42#8), some (.seReg 1#4 2#4), some (.sneReg 10#4 5#4)] := by decide

theorem test_decode_groups_6_7 : [0x6FAB, 0x70FF].map (decodeTableWord 16) =
    [some (.ldImm 15#4 0xAB#8), some (.addImm 0#4 0xFF#8)] := by decide

theorem test_decode_group_8_logic : [0x8120, 0x8341, 0x8562, 0x8783].map (decodeTableWord 16) =
    [some (.ldReg 1#4 2#4), some (.orReg 3#4 4#4), some (.andReg 5#4 6#4), some (.xorReg 7#4 8#4)] := by decide

theorem test_decode_group_8_flags : [0x89A4, 0x8BC5, 0x8DE6, 0x8F07, 0x812E].map (decodeTableWord 16) =
    [some (.addReg 9#4 10#4), some (.subReg 11#4 12#4), some (.shr 13#4 14#4), some (.subn 15#4 0#4), some (.shl 1#4 2#4)] := by
  decide

theorem test_decode_groups_A_B_C_D : [0xA123, 0xB1F0, 0xC30F, 0xD125].map (decodeTableWord 16) =
    [some (.ldI 0x123#12), some (.jpV0 0x1F0#12), some (.rnd 3#4 0x0F#8), some (.drw 1#4 2#4 5#4)] := by decide

theorem test_decode_group_E : [0xE39E, 0xE4A1].map (decodeTableWord 16) = [some (.skp 3#4), some (.sknp 4#4)] := by decide

theorem test_decode_group_F_timers : [0xF307, 0xF50A, 0xF415, 0xF618].map (decodeTableWord 16) =
    [some (.ldVxDt 3#4), some (.ldVxK 5#4), some (.ldDtVx 4#4), some (.ldStVx 6#4)] := by decide

theorem test_decode_group_F_memory : [0xF21E, 0xF229, 0xFA33, 0xFF55, 0xF165].map (decodeTableWord 16) =
    [some (.addIVx 2#4), some (.ldFVx 2#4), some (.ldBVx 10#4), some (.ldMemVx 15#4), some (.ldVxMem 1#4)] := by decide

/-- T1.3, T1.5 to T1.10: the words of the illegal space. -/
theorem test_decode_illegal : [0x0123, 0x0000, 0x800F, 0x8008, 0x800D, 0x5121, 0x9121, 0xE19F, 0xF100].map (decodeTableWord 16) =
    [none, none, none, none, none, none, none, none, none] := by decide

theorem test_decode_loose_words : decodeWord loose 0x5121#16 = .instr (.seReg 1#4 2#4) ∧
    decodeWord loose 0x9AB7#16 = .instr (.sneReg 10#4 11#4) := by decide

theorem test_decode_sys_nop : decodeWord sysNops 0x0123#16 = .sysNop ∧ decodeWord sysNops 0x00E0#16 = .instr .cls := by decide

/-- R65, R80: the high byte comes first, and one byte is no instruction. -/
theorem test_decode_bytes : decodeBytes Params.default [0x60#8, 0x05#8, 0x70#8] = (.instr (.ldImm 0#4 5#8), [0x70#8]) ∧
    decodeBytes Params.default [0x60#8] = (.illegal .truncated, [0x60#8]) := by decide

theorem test_encode_words : [Instr.drw 1#4 2#4 5#4, .ldI 0x123#12, .shl 1#4 2#4, .ldVxMem 15#4, .rnd 3#4 0x0F#8].map encode =
    [0xD125#16, 0xA123#16, 0x812E#16, 0xFF65#16, 0xC30F#16] := by decide

/-! ### What is not well formed is refused -/

theorem test_wellFormedWord_refuses : [0x0123#16, 0x5121#16, 0x800F#16, 0x9121#16, 0xE19F#16, 0xF100#16].map
    (wellFormedWord Params.default) = [false, false, false, false, false, false] := by decide

theorem test_wellFormedWord_accepts : [0x00E0#16, 0x5120#16, 0x800E#16, 0xE19E#16, 0xF165#16].all (wellFormedWord Params.default) ∧
    wellFormedWord sysNops 0x0123#16 = true ∧ wellFormedWord loose 0x5121#16 = true := by decide

/-- T9.5, T9.6. -/
theorem test_wellFormedRom_refuses_3585 : wellFormedRom (List.replicate 3585 0#8) = false ∧
    wellFormedRom (List.replicate 3584 0#8) = true := by decide +kernel

theorem test_wellFormedKey_refuses_16 : wellFormedKey 16 = false ∧ wellFormedKey 15 = true := by decide

/-- A listed byte equal to what an unlisted address reads as, and cells out of order, are not canonical. -/
theorem test_memory_wf_refuses : Memory.wf { font := FontTable.default, cells := [(0x300, 0#8)] } = false ∧
    Memory.wf { font := FontTable.default, cells := [(0x301, 1#8), (0x300, 1#8)] } = false ∧
    Memory.wf { font := FontTable.default, cells := [(0x1000, 1#8)] } = false := by decide

/-- Writing back what an unlisted address reads as removes the cell. -/
theorem test_memory_write_removes : ((State.reset.mem.write 0x300 7#8).write 0x300 0#8) = State.reset.mem := by decide

/-! ### The step cycle -/

/-- T1.1: the empty ROM stops at once, with nothing fetched. -/
theorem test_step_stops : endOf State.reset = some (.stopped, 0x200#16, 0x0000#16) := by decide

/-- T1.3: DecodeFault, with the word in `opcode` and PC left. -/
theorem test_step_decode_fault : endOf (ready 0x0123) = some (faultAt200 0x0123#16 .decode, 0x200#16, 0x0123#16) := by decide

/-- T1.4: SYS_MODE = nop. -/
theorem test_step_sys_nop : endOf (readyWith sysNops 0x0123) = some (.running, 0x202#16, 0x0123#16) := by decide

/-- T1.11: the second byte of the fetch at 0xFFF is above memory, and `opcode` keeps the word before. -/
theorem test_step_fetch_fault : endOf { ready 0 with pc := 0xFFF#16, romLen := 3584, opcode := 0x1FFF#16 } =
    some (.faulted { cause := .fetch 0x1000, opcode := 0x1FFF#16, pc := 0xFFF#16 }, 0xFFF#16, 0x1FFF#16) := by decide

/-- T1.14: low memory is fetched; the word there is 0xF090. -/
theorem test_step_fetches_low : (endOf { ready 0 with pc := 0#16 }).map (fun e => e.2) = some (0#16, 0xF090#16) := by decide

/-- T9.1 and T9.2: the tick is in a completed step, not in a faulting one. -/
theorem test_step_ticks : (nextOf (step { ready 0x6005 with dt := 2#8, st := 1#8 })).map (fun t => (t.dt, t.st)) = some (1#8, 0#8) ∧
    (nextOf (step { ready 0x0123 with dt := 2#8 })).map (fun t => t.dt) = some 2#8 := by decide

/-- T1.13: a Faulted core is frozen. -/
theorem test_step_faulted_frozen : step { ready 0x6005 with run := faultAt200 0#16 .decode, dt := 2#8 } =
    .next { ready 0x6005 with run := faultAt200 0#16 .decode, dt := 2#8 } := rfl

/-- `withFetchWord` places the word where the next step of the reset state runs it. -/
theorem test_withFetchWord : (nextOf (core.step (State.reset.withFetchWord 16 0x6A9C))).map (fun t => (t.getV 10#4, t.opcode)) =
    some (0x9C#8, 0x6A9C#16) := by decide

/-! ### Groups 0, 1, 2 and B -/

/-- T2.1, W2. -/
theorem test_cls : (nextOf (step { ready 0x00E0 with disp := togglePixel blankDisplay 5 7 })).map
    (fun t => (decide (t.disp = blankDisplay), t.redraw, t.pc)) = some (true, true, 0x202#16) := by decide

/-- T2.3. -/
theorem test_ret : (nextOf (step { ready 0x00EE with sp := 3#8, stack := State.reset.stack.set 2 0x456#16 })).map
    (fun t => (t.sp, t.pc, t.stack[2])) = some (2#8, 0x456#16, 0x456#16) := by decide

/-- T2.2. -/
theorem test_ret_underflow : endOf (ready 0x00EE) =
    some (faultAt200 0x00EE#16 (.stackUnderflow 0#8), 0x200#16, 0x00EE#16) := by decide

/-- T2.5. -/
theorem test_jp : (nextOf (step (ready 0x1FFF))).map (fun t => t.pc) = some 0xFFF#16 := by decide

/-- T2.6, at 0x200. -/
theorem test_call : (nextOf (step { ready 0x2ABC with sp := 15#8 })).map (fun t => (t.stack[15], t.sp, t.pc)) =
    some (0x202#16, 16#8, 0xABC#16) := by decide

/-- T2.7, at 0x200. -/
theorem test_call_overflow : endOf { ready 0x2ABC with sp := 16#8 } =
    some (faultAt200 0x2ABC#16 (.stackOverflow 16#8), 0x200#16, 0x2ABC#16) := by decide

/-- T5.3: V0 is added, not V1. -/
theorem test_jpV0 : (nextOf (step (((ready 0xB1F0).setV 0#4 0x10#8).setV 1#4 0x55#8))).map (fun t => t.pc) = some 0x200#16 := by decide

/-- T5.4: the two values of ADDR_WRAP. -/
theorem test_jpV0_wrap : (nextOf (step ((ready 0xBFFF).setV 0#4 2#8))).map (fun t => t.pc) = some 0x1001#16 ∧
    (nextOf (step ((readyWith wrapped 0xBFFF).setV 0#4 2#8))).map (fun t => t.pc) = some 0x001#16 := by decide

/-! ### Groups 3, 4, 5, 9 and E -/

/-- T3.1, T3.2. -/
theorem test_seImm : (nextOf (step ((ready 0x3342).setV 3#4 0x42#8))).map (fun t => t.pc) = some 0x204#16 ∧
    (nextOf (step ((ready 0x3342).setV 3#4 0x41#8))).map (fun t => t.pc) = some 0x202#16 := by decide

/-- T3.3, T3.4. -/
theorem test_sneImm : (nextOf (step ((ready 0x4342).setV 3#4 0x42#8))).map (fun t => t.pc) = some 0x202#16 ∧
    (nextOf (step (ready 0x4342))).map (fun t => t.pc) = some 0x204#16 := by decide

/-- T3.5, and the unequal case of R122. -/
theorem test_seReg : (nextOf (step (((ready 0x5120).setV 1#4 0x80#8).setV 2#4 0x80#8))).map (fun t => t.pc) = some 0x204#16 ∧
    (nextOf (step ((ready 0x5120).setV 2#4 0x80#8))).map (fun t => t.pc) = some 0x202#16 := by decide

/-- T3.7, T3.8. -/
theorem test_sneReg : (nextOf (step (((ready 0x9120).setV 1#4 1#8).setV 2#4 2#8))).map (fun t => t.pc) = some 0x204#16 ∧
    (nextOf (step (ready 0x9110))).map (fun t => t.pc) = some 0x202#16 := by decide

/-- A state with the key numbered 4 pressed and V3 = 4. -/
def withKey4 (w : Nat) : State := { (ready w).setV 3#4 4#8 with key := State.reset.key.set 4 true }

/-- T7.1, T7.2. -/
theorem test_skp : (nextOf (step (withKey4 0xE39E))).map (fun t => t.pc) = some 0x204#16 ∧
    (nextOf (step ((ready 0xE39E).setV 3#4 4#8))).map (fun t => t.pc) = some 0x202#16 := by decide

/-- T7.5. -/
theorem test_skp_key_index : endOf ((ready 0xE39E).setV 3#4 0x10#8) =
    some (faultAt200 0xE39E#16 (.keyIndex 0x10#8), 0x200#16, 0xE39E#16) := by decide

/-- T7.3, T7.4. -/
theorem test_sknp : (nextOf (step (withKey4 0xE3A1))).map (fun t => t.pc) = some 0x202#16 ∧
    (nextOf (step ((ready 0xE3A1).setV 3#4 4#8))).map (fun t => t.pc) = some 0x204#16 := by decide

/-- T7.6. -/
theorem test_sknp_key_index : endOf ((ready 0xE3A1).setV 3#4 0xFF#8) =
    some (faultAt200 0xE3A1#16 (.keyIndex 0xFF#8), 0x200#16, 0xE3A1#16) := by decide

/-! ### Groups 6, 7, 8 and C -/

/-- V1 and V2, then VF, before a step of a group 8 instruction. -/
def withV12F (w : Nat) (a b f : Byte) : State := (((ready w).setV 1#4 a).setV 2#4 b).setV vf f

/-- V1 and VF after a step. -/
def v1f (s : State) : Option (Byte × Byte) := (nextOf (step s)).map fun t => (t.getV 1#4, t.getV vf)

/-- T4.1. -/
theorem test_ldImm : (nextOf (step (ready 0x6FAB))).map (fun t => (t.getV vf, t.pc)) = some (0xAB#8, 0x202#16) := by decide

/-- T4.2: no carry. -/
theorem test_addImm : v1f (withV12F 0x7101 0xFF#8 0#8 0x55#8) = some (0x00#8, 0x55#8) := by decide

/-- T4.4. -/
theorem test_ldReg : v1f (withV12F 0x8120 0#8 0x33#8 0#8) = some (0x33#8, 0#8) := by decide

/-- T4.5. -/
theorem test_orReg : v1f (withV12F 0x8121 0x0C#8 0x03#8 0x77#8) = some (0x0F#8, 0x77#8) := by decide

/-- T4.6. -/
theorem test_andReg : v1f (withV12F 0x8122 0x0C#8 0x06#8 0x77#8) = some (0x04#8, 0x77#8) := by decide

/-- T4.7, and R136 on different registers. -/
theorem test_xorReg : v1f (withV12F 0x8113 0x5A#8 0#8 0#8) = some (0x00#8, 0#8) ∧
    v1f (withV12F 0x8123 0x0C#8 0x06#8 0x77#8) = some (0x0A#8, 0x77#8) := by decide

/-- T4.8, T4.9. -/
theorem test_addReg : v1f (withV12F 0x8124 0x80#8 0x7F#8 9#8) = some (0xFF#8, 0#8) ∧
    v1f (withV12F 0x8124 0x80#8 0x80#8 9#8) = some (0x00#8, 1#8) := by decide

/-- T4.10: VF as destination, for both values of ALU_VF_READ. -/
theorem test_addReg_vf : (nextOf (step (((ready 0x8F14).setV vf 0x10#8).setV 1#4 0xF5#8))).map (fun t => t.getV vf) = some 0x05#8 ∧
    (nextOf (step (((readyWith reread 0x8F14).setV vf 0x10#8).setV 1#4 0xF5#8))).map (fun t => t.getV vf) = some 0xF6#8 := by decide

/-- T4.12, T4.13. -/
theorem test_subReg : v1f (withV12F 0x8125 5#8 5#8 9#8) = some (0#8, 1#8) ∧ v1f (withV12F 0x8125 0#8 1#8 9#8) = some (0xFF#8, 0#8) := by
  decide

/-- T4.16: Vy is not read; T4.17. -/
theorem test_shr : v1f (withV12F 0x8126 2#8 0xFF#8 9#8) = some (1#8, 0#8) ∧
    (nextOf (step ((ready 0x8F06).setV vf 3#8))).map (fun t => t.getV vf) = some 1#8 := by decide

/-- T4.17: reread. -/
theorem test_shr_vf_reread : (nextOf (step ((readyWith reread 0x8F06).setV vf 3#8))).map (fun t => t.getV vf) = some 0#8 := by decide

/-- T4.14, T4.15. -/
theorem test_subn : v1f (withV12F 0x8127 3#8 0x0A#8 9#8) = some (7#8, 1#8) ∧ v1f (withV12F 0x8127 7#8 7#8 9#8) = some (0#8, 1#8) := by
  decide

/-- T4.18; W3: SHL on 0x81. -/
theorem test_shl : v1f (withV12F 0x812E 0x7F#8 3#8 9#8) = some (0xFE#8, 0#8) ∧ v1f (withV12F 0x812E 0x81#8 3#8 9#8) = some (2#8, 1#8) := by
  decide

/-- T4.19: reread. -/
theorem test_shl_vf_reread : (nextOf (step ((readyWith reread 0x8FFE).setV vf 0x81#8))).map (fun t => t.getV vf) = some 2#8 := by decide

/-- T5.6: a zero mask gives zero, whatever the draw. -/
theorem test_rnd_zero_mask : (nextOf (exec (.rnd 3#4 0#8) (ready 0xC300))).map (fun t => (t.getV 3#4, t.pc)) = some (0#8, 0x202#16) := by
  simp [nextOf, exec, execRnd, writeReg, State.advance, ready, State.reset, State.withFetchWord, placeWord]
  decide

/-! ### I and the block instructions -/

/-- T5.1. -/
theorem test_ldI : (nextOf (step (ready 0xA123))).map (fun t => (t.i, t.pc)) = some (0x123#16, 0x202#16) := by decide

/-- T8.8, T8.9. -/
theorem test_addIVx : (nextOf (step ((((ready 0xF21E).setI 0x0FFF#16).setV 2#4 1#8).setV vf 0x33#8))).map (fun t => (t.i, t.getV vf)) =
    some (0x1000#16, 0x33#8) ∧ (nextOf (step (((ready 0xF21E).setI 0xFFFF#16).setV 2#4 2#8))).map (fun t => t.i) = some 1#16 := by decide

/-- T8.10, T8.11. -/
theorem test_ldFVx : (nextOf (step ((ready 0xF229).setV 2#4 0x0F#8))).map (fun t => t.i) = some 0x4B#16 ∧
    (nextOf (step ((ready 0xF229).setV 2#4 0x10#8))).map (fun t => t.i) = some 0x50#16 := by decide

/-- T8.12. -/
theorem test_ldBVx : (nextOf (step (((ready 0xF233).setV 2#4 0xFF#8).setI 0x400#16))).map (fun t => loadBlock t 3) =
    some [2#8, 5#8, 5#8] := by decide

/-- T8.14, T8.15. -/
theorem test_ldBVx_faults : endOf ((ready 0xF233).setI 0x1FF#16) =
      some (faultAt200 0xF233#16 (.reservedWrite 0x1FF), 0x200#16, 0xF233#16) ∧
    endOf ((ready 0xF233).setI 0xFFE#16) = some (faultAt200 0xF233#16 (.memWrite 0x1000), 0x200#16, 0xF233#16) := by decide

/-- V0 to VF holding 0 to 15. -/
def countingV : Vector Byte 16 := Vector.ofFn fun k => BitVec.ofNat 8 k.val

/-- T8.16. -/
theorem test_ldMemVx : (nextOf (step { (ready 0xFF55).setI 0x300#16 with v := countingV })).map (fun t => (loadBlock t 16, t.i)) =
    some (countingV.toList, 0x300#16) := by decide

/-- T8.18. -/
theorem test_ldMemVx_fault : endOf ((ready 0xFF55).setI 0xFF5#16) =
    some (faultAt200 0xFF55#16 (.memWrite 0x1000), 0x200#16, 0xFF55#16) := by decide

/-- T8.19: the font. -/
theorem test_ldVxMem : (nextOf (step (ready 0xF165))).map (fun t => (t.getV 0#4, t.getV 1#4, t.getV 2#4)) =
    some (0xF0#8, 0x90#8, 0#8) := by decide

/-- T8.20. -/
theorem test_ldVxMem_fault : endOf ((ready 0xFF65).setI 0xFF1#16) =
    some (faultAt200 0xFF65#16 (.memRead 0x1000), 0x200#16, 0xFF65#16) := by decide

/-! ### DRW -/

/-- A one-byte sprite at 0x300, drawn at (V1, V2). -/
def withSprite (p : Params) (w : Nat) (row x y : Byte) : State :=
  poke ((((readyWith p w).setI 0x300#16).setV 1#4 x).setV 2#4 y) 0x300 row

/-- T6.2: the columns of row 0 that are set after 0xFF is drawn at column 60, for both edge behaviours. -/
theorem test_drw_edge :
    (nextOf (step (withSprite Params.default 0xD121 0xFF#8 60#8 0#8))).map
      (fun t => [59, 60, 63, 0, 3, 4].map (pixel t.disp 0)) = some [false, true, true, true, true, false] ∧
    (nextOf (step (withSprite clip 0xD121 0xFF#8 60#8 0#8))).map
      (fun t => [59, 60, 63, 0, 3, 4].map (pixel t.disp 0)) = some [false, true, true, false, false, false] := by decide

/-- T6.5, T6.6: VF tells an erased pixel, not an overlap. -/
theorem test_drw_collision :
    (nextOf (step { withSprite Params.default 0xD121 0x40#8 0#8 0#8 with disp := togglePixel blankDisplay 0 0 })).map
      (fun t => (pixel t.disp 0 0, pixel t.disp 0 1, t.getV vf)) = some (true, true, 0#8) ∧
    (nextOf (step { withSprite Params.default 0xD121 0x40#8 0#8 0#8 with disp := togglePixel blankDisplay 0 1 })).map
      (fun t => (pixel t.disp 0 1, t.getV vf)) = some (false, 1#8) := by decide

/-! ### Timers and the key wait -/

/-- T8.2: DT is read before the tick. -/
theorem test_ldVxDt : (nextOf (step { ready 0xF307 with dt := 1#8 })).map (fun t => (t.getV 3#4, t.dt)) = some (1#8, 0#8) := by decide

/-- W7: the tick of the same step; T8.6. -/
theorem test_ldDtVx : (nextOf (step ((ready 0xF515).setV 5#4 5#8))).map (fun t => t.dt) = some 4#8 ∧
    (nextOf (step { ready 0xF515 with dt := 7#8 })).map (fun t => t.dt) = some 0#8 := by decide

/-- T8.7. -/
theorem test_ldStVx : (nextOf (step ((ready 0xF418).setV 4#4 0xFF#8))).map (fun t => t.st) = some 0xFE#8 := by decide

/-- T8.4 with KEY_SELECT = lowest. -/
theorem test_ldVxK : (nextOf (step { ready 0xF50A with key := (State.reset.key.set 9 true).set 3 true })).map
    (fun t => (t.getV 5#4, t.pc)) = some (3#8, 0x202#16) := by decide

/-- T8.3: the stall. -/
theorem test_ldVxK_stall : (nextOf (step { (ready 0xF50A).setV 5#4 0x77#8 with dt := 3#8 })).map
    (fun t => (t.getV 5#4, t.pc, t.dt)) = some (0x77#8, 0x200#16, 2#8) := by decide

/-! ### The host -/

/-- R240 of the empty ROM is the reset state. -/
theorem test_initCore_reset : initCore Params.default FontTable.default [] = .next State.reset := rfl

/-- W6: the first bytes of a ROM, and its length. -/
theorem test_initCore_rom : (nextOf (initCore Params.default FontTable.default [0x60#8, 0x05#8])).map
    (fun t => (t.mem.read 0x200, t.mem.read 0x201, t.mem.read 0x04F, t.romLen, t.pc)) =
    some (0x60#8, 0x05#8, 0x80#8, 2, 0x200#16) := by decide

/-- W2: consumed once. -/
theorem test_consumeRedraw : (consumeRedraw { State.reset with redraw := true }).1 = true ∧
    (consumeRedraw (consumeRedraw { State.reset with redraw := true }).2).1 = false := by decide

theorem test_setKey : (nextOf (setKey 0xA true State.reset)).map (fun t => (t.keyDown 10, t.keyDown 9)) = some (true, false) ∧
    setKey 16 true State.reset = .refused (.keyNumber 16) := ⟨by decide, rfl⟩

/-- R205: the fault is handed back by the step that raises it, and by no later one. -/
theorem test_stepResult : stepResult (ready 0x0123) = some { cause := .decode, opcode := 0x0123#16, pc := 0x200#16 } ∧
    stepResult { ready 0x0123 with run := faultAt200 0x0123#16 .decode } = none ∧ FaultKind.code .decodeFault = 1 := by decide

/-! ### Witnesses: states and operands that meet the hypotheses of each statement, clause by clause -/

theorem witness_EncodeOfDecodeIsTheWord : Params.default.loose59 = false ∧ decodeWord Params.default 0x8F14#16 = .instr (.addReg 15#4 1#4) := by
  decide

theorem witness_DecoderAgreesWithTheOpcodeMap : decodeWord loose 0x5121#16 = .instr (.seReg 1#4 2#4) ∧
    decodeWord Params.default 0x5121#16 = .illegal .group5 ∧ wellFormedWord Params.default 0x5121#16 = false := by decide

theorem witness_GroupZeroWordsFollowSysMode : Params.default.sysMode = .fault ∧ sysNops.sysMode = .nop ∧
    (0x0000#16).toNat < 0x1000 ∧ (0x0000#16).toNat ≠ 0x00E0 ∧ (0x0000#16).toNat ≠ 0x00EE ∧
    (0x0FFF#16).toNat < 0x1000 ∧ (0x0FFF#16).toNat ≠ 0x00E0 ∧ (0x0FFF#16).toNat ≠ 0x00EE := by decide

/-- The three ways a handler ends: it completes, it faults, and, with SP = 17, the model stops. -/
theorem witness_StepRunsTheDecodedInstruction :
    ((ready 0x6005).run = .running ∧ stopTest (ready 0x6005) = false ∧ (ready 0x6005).pc.toNat ≤ 0xFFF ∧
      secondByteAddr (ready 0x6005) ≤ 0xFFF ∧
      0x6005#16 = wordOfBytes ((ready 0x6005).mem.read (ready 0x6005).pc.toNat) ((ready 0x6005).mem.read (secondByteAddr (ready 0x6005))) ∧
      decodeWord (ready 0x6005).params 0x6005#16 = .instr (.ldImm 0#4 5#8) ∧
      (nextOf (exec (.ldImm 0#4 5#8) ((ready 0x6005).setOpcode 0x6005#16))).map (fun u => u.run) = some .running) ∧
    (decodeWord (ready 0x00EE).params 0x00EE#16 = .instr .ret ∧
      (nextOf (exec .ret ((ready 0x00EE).setOpcode 0x00EE#16))).map (fun u => u.run) = some (faultAt200 0x00EE#16 (.stackUnderflow 0#8))) := by
  decide

theorem witness_StepRunsTheDecodedInstruction_stop : exec .ret ({ ready 0x00EE with sp := 17#8 }.setOpcode 0x00EE#16) = .fault (.stackPointer 17#8) :=
  rfl

theorem witness_StoppedOrFaultedStepChangesNothing : ({ ready 0x6005 with run := .stopped } : State).run = .stopped ∧
    ∃ f, ({ ready 0x6005 with run := faultAt200 0#16 .decode } : State).run = .faulted f :=
  ⟨rfl, _, rfl⟩

/-- The stop test at its boundary, for both values of STOP_CMP: a ROM of 0x100 bytes ends at 0x300. -/
theorem witness_StopTestDecidesTheStop :
    ((ready 0x6005).run = .running ∧ Params.default.stopCmp = .ge ∧ stopGt.stopCmp = .gt) ∧
    ({ ready 0x6005 with pc := 0x300#16 } : State).pc.toNat ≥ 0x200 + (ready 0x6005).romLen ∧
    ({ readyWith stopGt 0x6005 with pc := 0x301#16 } : State).pc.toNat > 0x200 + (ready 0x6005).romLen ∧
    ((ready 0x6005).pc.toNat < 0x200 + (ready 0x6005).romLen ∧ (nextOf (step (ready 0x6005))).isSome = true) ∧
    (({ readyWith stopGt 0x6005 with pc := 0x300#16 } : State).pc.toNat ≤ 0x200 + (ready 0x6005).romLen ∧
      (nextOf (step { readyWith stopGt 0x6005 with pc := 0x300#16 })).isSome = true) := by decide

/-- With STOP_CMP = gt the core fetches at 0x1000; with either value at 0xFFF. -/
theorem witness_FetchAboveMemoryFaults :
    (stopTest { readyWith stopGt 0 with pc := 0x1000#16, romLen := 3584 } = false ∧
      ({ readyWith stopGt 0 with pc := 0x1000#16, romLen := 3584 } : State).pc.toNat > 0xFFF) ∧
    (stopTest { ready 0 with pc := 0xFFF#16, romLen := 3584 } = false ∧ (ready 0).params.addrWrap = .unwrapped) := by decide

theorem witness_IllegalWordRaisesDecodeFault : Fetches (readyWith Params.default 0x0123) 0x0123#16 ∧
    wellFormedWord Params.default 0x0123#16 = false :=
  ⟨⟨rfl, by decide, rfl⟩, by decide⟩

theorem witness_SysNopOnlyAdvancesPc : Fetches (readyWith sysNops 0x0000) 0x0000#16 ∧ Fetches (readyWith sysNops 0x0FFF) 0x0FFF#16 ∧
    sysNops.sysMode = .nop :=
  ⟨⟨rfl, by decide, rfl⟩, ⟨rfl, by decide, rfl⟩, rfl⟩

/-- A fault of a handler, the word fetched, and a fault of the fetch. -/
theorem witness_FaultEntryWritesOnlyRunAndOpcode :
    (endOf (ready 0x00EE) = some (faultAt200 0x00EE#16 (.stackUnderflow 0#8), 0x200#16, 0x00EE#16) ∧
      fetch16 (ready 0x00EE) = .ok 0x00EE#16) ∧
    (endOf { ready 0 with pc := 0xFFF#16, romLen := 3584 } =
        some (.faulted { cause := .fetch 0x1000, opcode := 0#16, pc := 0xFFF#16 }, 0xFFF#16, 0#16) ∧
      fetch16 { ready 0 with pc := 0xFFF#16, romLen := 3584 } = .error (.fetch 0x1000)) :=
  ⟨⟨by decide, rfl⟩, ⟨by decide, rfl⟩⟩

theorem witness_EachInstructionRaisesOneFaultKind :
    (nextOf (exec .ret (ready 0))).map (fun t => t.run) = some (faultAt200 0#16 (.stackUnderflow 0#8)) ∧
    (nextOf (exec (.drw 0#4 0#4 2#4) ((ready 0).setI 0xFFF#16))).map (fun t => t.run) = some (faultAt200 0#16 (.memRead 0x1000)) := by
  decide

theorem witness_TimersTickInCompletedStepsOnly :
    (∃ t, step (readyWith Params.default 0x6005) = .next t ∧ t.run = .running) ∧
    (∀ x, ¬ Runs (readyWith Params.default 0x6005) (.ldDtVx x) ∧ ¬ Runs (readyWith Params.default 0x6005) (.ldStVx x)) ∧
    (∃ t, step State.reset = .next t ∧ t.run ≠ .running) := by
  have hr : Runs (readyWith Params.default 0x6005) (.ldImm 0#4 5#8) := ⟨0x6005#16, ⟨rfl, by decide, rfl⟩, by decide⟩
  exact ⟨⟨_, rfl, rfl⟩, fun x => ⟨fun h => (by cases runs_unique hr h), fun h => (by cases runs_unique hr h)⟩, ⟨_, rfl, by decide⟩⟩

/-- One completed step of a jump to itself, from DT = 1. -/
theorem witness_TimersCountCompletedSteps :
    ∃ s t, s.dt = 1#8 ∧ CompletesIn (fun i => ∃ x, i = .ldDtVx x) 1 s t ∧ CompletesIn (fun i => ∃ x, i = .ldStVx x) 1 s t := by
  have hr : Runs { readyWith Params.default 0x1200 with dt := 1#8 } (.jp 0x200#12) := ⟨0x1200#16, ⟨rfl, by decide, rfl⟩, by decide⟩
  have ht : Completes { readyWith Params.default 0x1200 with dt := 1#8 } { readyWith Params.default 0x1200 with opcode := 0x1200#16 } :=
    ⟨rfl, rfl, rfl⟩
  refine ⟨_, _, rfl, ⟨_, ht, fun i hi => ?_, rfl⟩, ⟨_, ht, fun i hi => ?_, rfl⟩⟩ <;> (rintro ⟨x, rfl⟩; cases runs_unique hr hi)

theorem witness_TimerWriteIsTickedInTheSameStep : Runs (readyWith Params.default 0xF515) (.ldDtVx 5#4) ∧
    Runs (readyWith Params.default 0xF518) (.ldStVx 5#4) :=
  ⟨⟨0xF515#16, ⟨rfl, by decide, rfl⟩, by decide⟩,
   ⟨0xF518#16, ⟨rfl, by decide, rfl⟩, by decide⟩⟩

theorem witness_KeyWaitStallChangesOnlyTimers : Fetches (readyWith Params.default 0xF50A) 0xF50A#16 ∧
    decodeWord Params.default 0xF50A#16 = .instr (.ldVxK 5#4) ∧ ∀ k, k < 16 → (readyWith Params.default 0xF50A).keyDown k = false :=
  ⟨⟨rfl, by decide, rfl⟩, by decide, by decide⟩

/-- A state that is not the reset state meets both invariants: SP = 16, the last slot holding the highest return address, PC at its
bound, and bytes in memory; and it has a next state. -/
def deep : State := { ready 0x00EE with sp := 16#8, stack := State.reset.stack.set 15 0x1001#16, pc := 0x10FE#16, romLen := 3584 }

theorem deep_inv : Inv deep where
  memWf := by decide
  spRange := by decide
  romLenRange := by decide
  reserved := fun _ => by decide +kernel

theorem deep_pcInv : PcInv deep where
  pcBound := by decide
  returnBound := by decide

theorem witness_StepKeepsInvariant : ∃ s t : State, Inv s ∧ step s = .next t :=
  ⟨deep, _, deep_inv, rfl⟩

theorem witness_StepKeepsPcBounds : ∃ s t : State, Inv s ∧ PcInv s ∧ step s = .next t :=
  ⟨deep, _, deep_inv, deep_pcInv, rfl⟩

theorem witness_RunsFromInitializeKeepInvariant : ∃ s, initCore clip FontTable.default [0x60#8, 0x05#8] = .next s ∧
    (∃ t, runEvents [.step, .setKey 15 true, .consumeRedraw, .step] s = .next t) ∧
    runEvents [.step, .setKey 16 true] s = .refused (.keyNumber 16) :=
  ⟨_, rfl, ⟨_, rfl⟩, rfl⟩

theorem witness_EndedCoreIsFrozen : EndsWell { ready 0x6005 with run := .stopped } ∧
    EndsInError { ready 0x6005 with run := faultAt200 0#16 .decode } ∧
    (∃ t, runEvents [.step, .consumeRedraw, .setKey 3 true, .step] { ready 0x6005 with run := .stopped } = .next t) ∧
    ∃ t, runEvents [.step, .consumeRedraw] { ready 0x6005 with run := faultAt200 0#16 .decode } = .next t :=
  ⟨rfl, ⟨_, rfl⟩, ⟨_, rfl⟩, ⟨_, rfl⟩⟩

/-- A store at the very edge of the reserved area. -/
theorem witness_ReservedAreaIsNeverWritten : ((ready 0xF055).setI 0x200#16).params.protectReserved = true ∧
    (nextOf (step (((ready 0xF055).setI 0x200#16).setV 0#4 9#8))).map (fun t => (t.mem.read 0x1FF, t.mem.read 0x200)) = some (0#8, 9#8) := by
  decide

theorem witness_OnlyTheTwoStoresChangeMemory : (∃ t, step (readyWith Params.default 0x6005) = .next t) ∧
    (∀ x, ¬ Runs (readyWith Params.default 0x6005) (.ldBVx x)) ∧ ∀ x, ¬ Runs (readyWith Params.default 0x6005) (.ldMemVx x) := by
  have hr : Runs (readyWith Params.default 0x6005) (.ldImm 0#4 5#8) := ⟨0x6005#16, ⟨rfl, by decide, rfl⟩, by decide⟩
  exact ⟨⟨_, rfl⟩, fun x h => (by cases runs_unique hr h), fun x h => (by cases runs_unique hr h)⟩

/-- A handler that completes and one that faults; the bytes on both sides of a stored block; a slot beside the one CALL writes. The
pixels a sprite covers and does not are those of witness_DrawTogglesTheCoveredPixels. -/
theorem witness_EveryHandlerKeepsItsFrame : (∃ t, exec (.drw 1#4 2#4 15#4) (ready 0) = .next t) ∧
    (∃ t, exec (.drw 1#4 2#4 15#4) ((ready 0).setI 0xFFF#16) = .next t) ∧
    ((∃ t, exec (.ldBVx 0#4) ((ready 0).setI 0x300#16) = .next t) ∧
      ∀ k, k < storeLen (.ldBVx 0#4) → blockAddr (ready 0).params 0x300#16 k ≠ 0x2FF ∧ blockAddr (ready 0).params 0x300#16 k ≠ 0x303) ∧
    (∃ t, exec (.call 0xABC#12) { ready 0 with sp := 15#8 } = .next t) ∧ 14 ≠ ({ ready 0 with sp := 15#8 } : State).sp.toNat :=
  ⟨⟨_, rfl⟩, ⟨_, rfl⟩, ⟨⟨_, rfl⟩, by decide⟩, ⟨_, rfl⟩, by decide⟩

theorem witness_RedrawIsSetByClsAndDrwAlone :
    (∃ t, step (readyWith Params.default 0x00E0) = .next t ∧ t.run = .running ∧ t.redraw = true) ∧
    Runs (readyWith Params.default 0x00E0) .cls ∧ Runs (readyWith Params.default 0xD120) (.drw 1#4 2#4 0#4) ∧
    ∃ t, step (readyWith Params.default 0x6005) = .next t ∧ t.redraw = false :=
  ⟨⟨_, rfl, rfl, rfl⟩, ⟨0x00E0#16, ⟨rfl, by decide, rfl⟩, by decide⟩,
   ⟨0xD120#16, ⟨rfl, by decide, rfl⟩, by decide⟩, ⟨_, rfl, rfl⟩⟩

theorem witness_StepLeavesKeysAndRomLength : ∃ t, step (withKey4 0xE39E) = .next t :=
  ⟨_, rfl⟩

theorem witness_HiddenStateIsNotReadByPrograms : ∀ x y n, Instr.ldVxDt 3#4 ≠ .drw x y n := by simp

theorem witness_FreeValuesReachOnlyTheirInstructions : (∀ x kk, Instr.ldVxK 5#4 ≠ .rnd x kk) ∧ Params.default.keySelect = .lowest ∧
    ∃ t, exec (.ldVxK 5#4) (withKey4 0xF50A) = .next t :=
  ⟨by simp, rfl, ⟨_, rfl⟩⟩

/-- SP at both ends of its range, and SP = 0. -/
theorem witness_RetPopsTheReturnAddress : ({ ready 0 with sp := 1#8 } : State).sp.toNat = 0 + 1 ∧ deep.sp.toNat = 15 + 1 ∧
    (ready 0).sp.toNat = 0 := by decide

theorem witness_CallPushesTheReturnAddress : (ready 0).sp.toNat = 0 ∧ ({ ready 0 with sp := 15#8 } : State).sp.toNat = 15 ∧
    deep.sp.toNat = 16 := by decide

theorem witness_StackPointerAboveSixteenStops : 16 < ({ ready 0 with sp := 17#8 } : State).sp.toNat ∧
    16 < ({ ready 0 with sp := 255#8 } : State).sp.toNat := by decide

theorem witness_RetAfterCallReturns : ∃ t u : State, ({ ready 0 with sp := 15#8 } : State).sp.toNat < 16 ∧
    exec (.call 0xABC#12) { ready 0 with sp := 15#8 } = .next t ∧ u = t.setV 0#4 9#8 ∧ u.sp = t.sp ∧ u.stack = t.stack :=
  ⟨_, _, by decide, rfl, rfl, rfl, rfl⟩

theorem witness_JumpsWriteOnlyPc : (ready 0).params.addrWrap = .unwrapped ∧ (readyWith wrapped 0).params.addrWrap = .mod4096 := by decide

theorem witness_RegisterSkips : (loose.loose59 = true ∨ 15#4 = 0#4) ∧ (Params.default.loose59 = true ∨ 0#4 = 0#4) ∧
    Params.default.loose59 = false ∧ 1#4 ≠ 0#4 ∧ 15#4 ≠ 0#4 := by decide

/-- Vx = 0, 15 and 16, 255. -/
theorem witness_KeySkips : ((ready 0).getV 3#4).toNat = 0 ∧ (((ready 0).setV 3#4 15#8).getV 3#4).toNat = 15 ∧
    15 < (((ready 0).setV 3#4 16#8).getV 3#4).toNat ∧ 15 < (((ready 0).setV 3#4 255#8).getV 3#4).toNat := by decide

/-- The values of ALU_VF_READ, and a destination that is not VF and one that is. -/
theorem witness_AddWithCarry_SubtractWithNoBorrow_ShiftsByOne : (ready 0).params.aluVfRead = .snapshot ∧ (readyWith reread 0).params.aluVfRead = .reread ∧
    (14#4 : Reg) ≠ vf ∧ (15#4 : Reg) = vf := by decide

theorem witness_AluVfReadMattersOnlyForVf : (14#4 : Reg) ≠ vf ∧ (0#4 : Reg) ≠ vf ∧
    Instr.shl 14#4 0#4 ∈ [Instr.addReg 14#4 0#4, .subReg 14#4 0#4, .shr 14#4 0#4, .subn 14#4 0#4, .shl 14#4 0#4] ∧
    ∃ t, exec (.shl 14#4 0#4) { ready 0 with params := { (ready 0).params with aluVfRead := .snapshot } } = .next t :=
  ⟨by decide, by decide, by decide, ⟨_, rfl⟩⟩

theorem witness_RandomByteIsMasked : (0x7F#8).getLsbD 7 = false ∧ (0xFE#8).getLsbD 0 = false := by decide

theorem witness_KeyWaitRecordsAPressedKey : (15 < 16 ∧ ({ ready 0 with key := State.reset.key.set 15 true } : State).keyDown 15 = true) ∧
    (ready 0).params.keySelect = .lowest ∧ (readyWith anyKey 0).params.keySelect = .any ∧
    ∀ k, k < 16 → (ready 0).keyDown k = false := by decide

/-- Blocks that touch both ends of what may be written, and one in the font with PROTECT_RESERVED = false. -/
theorem witness_BcdStoresThreeDigits : Writable ((ready 0).setI 0x200#16) 3 ∧ Writable ((ready 0).setI 0xFFD#16) 3 ∧
    Writable ((readyWith unprotected 0).setI 0#16) 3 := by
  unfold Writable WritableAddr
  decide

theorem witness_RegisterStoreWritesTheBlock : Writable ((ready 0).setI 0xFFE#16) ((1#4 : Reg).toNat + 1) ∧
    Writable ((ready 0).setI 0x200#16) ((0#4 : Reg).toNat + 1) := by
  unfold Writable WritableAddr
  decide

theorem witness_RegisterLoadReadsTheBlock : Readable ((ready 0).setI 0xFF0#16) ((15#4 : Reg).toNat + 1) ∧
    Readable ((readyWith wrapped 0).setI 0xFFFF#16) ((0#4 : Reg).toNat + 1) ∧ (0#4 : Reg).toNat < (15#4 : Reg).toNat := by
  refine ⟨?_, ?_, by decide⟩ <;> (unfold Readable; decide)

/-- Blocks whose first byte is above memory, whose second is, and whose first is in the reserved area. -/
theorem witness_BlockFaultNamesTheFirstOffence :
    ((∀ j, j < 1 → blockAddr Params.default 0xFFF#16 j ≤ 0xFFF) ∧ blockAddr Params.default 0xFFF#16 1 > 0xFFF ∧ 1 < (2#4 : Nibble).toNat ∧
      1 < (1#4 : Reg).toNat + 1) ∧
    ((∀ j, j < 1 → WritableAddr Params.default (blockAddr Params.default 0xFFF#16 j)) ∧
      ¬ WritableAddr Params.default (blockAddr Params.default 0xFFF#16 1)) ∧
    ¬ WritableAddr Params.default (blockAddr Params.default 0x1FF#16 0) := by
  unfold WritableAddr
  decide

/-- A word stored at 0x300 and a state whose PC is there. -/
theorem witness_StoredWordIsFetched : ∃ t u : State, 1 ≤ (1#4 : Reg).toNat ∧ Writable ((ready 0).setI 0x300#16) ((1#4 : Reg).toNat + 1) ∧
    ((ready 0).setI 0x300#16).i.toNat ≤ 0xFFF ∧ exec (.ldMemVx 1#4) ((ready 0).setI 0x300#16) = .next t ∧
    u = t.setPc 0x300#16 ∧ u.mem = t.mem ∧ u.params = t.params ∧ u.pc = ((ready 0).setI 0x300#16).i := by
  refine ⟨_, _, by decide, ?_, by decide, rfl, rfl, rfl, rfl, rfl⟩
  unfold Writable WritableAddr
  decide

/-- Glyph 0 at (0, 0) on a cleared display: it covers the pixel at row 0, column 0, and not the one at row 0, column 4. -/
theorem witness_DrawTogglesTheCoveredPixels : Readable (ready 0) (5#4 : Nibble).toNat ∧ SpriteCovers (ready 0) 1#4 2#4 5#4 0 0 ∧
    ¬ SpriteCovers (ready 0) 1#4 2#4 5#4 0 4 := by
  refine ⟨by unfold Readable; decide, ⟨0, 0, by decide, by decide, by unfold SpritePixelOn; decide, by decide, by decide⟩, ?_⟩
  rintro ⟨k, b, hk, hb, hs, h1, h2⟩
  have hV : ((ready 0).getV 1#4).toNat = 0 ∧ ((ready 0).getV 2#4).toNat = 0 := by decide
  simp only [hV] at h1 h2
  have hk : k < 5 := hk
  obtain rfl : k = 0 := by simp at h1; omega
  obtain rfl : b = 4 := by simp at h2; omega
  exact absurd hs (by unfold SpritePixelOn; decide)

/-- One draw that erases no pixel, and, on a display with the covered pixel on, one that does. -/
theorem witness_DrawTogglesTheCoveredPixels_vf :
    (nextOf (exec (.drw 1#4 2#4 5#4) (ready 0))).map (fun t => (pixel t.disp 0 0, t.getV vf)) = some (true, 0#8) ∧
    (nextOf (exec (.drw 1#4 2#4 5#4) { ready 0 with disp := togglePixel blankDisplay 0 0 })).map
      (fun t => (pixel t.disp 0 0, t.getV vf)) = some (false, 1#8) := by decide

theorem witness_DrawingTwiceRestoresTheDisplay : (1#4 : Reg) ≠ vf ∧ (2#4 : Reg) ≠ vf ∧ Readable (ready 0) (5#4 : Nibble).toNat ∧
    (∃ t u, exec (.drw 1#4 2#4 5#4) (ready 0) = .next t ∧ exec (.drw 1#4 2#4 5#4) t = .next u) ∧
    (∀ r c, pixel (ready 0).disp r c = false) ∧ ∃ r c, SpriteCovers (ready 0) 1#4 2#4 5#4 r c :=
  ⟨by decide, by decide, by unfold Readable; decide, ⟨_, _, rfl, rfl⟩, pixel_blankDisplay,
   ⟨0, 0, witness_DrawTogglesTheCoveredPixels.2.1⟩⟩

theorem witness_RomLengthIsCheckedFirst : ((List.replicate 3584 0#8).length ≤ 3584 ∧ 3584 < (List.replicate 3585 0#8).length) ∧
    (∃ s, initCore Params.default FontTable.default [] = .next s) ∧ Params.default.stopCmp = .ge :=
  ⟨by decide +kernel, ⟨_, rfl⟩, rfl⟩

theorem witness_InitializeLaysOutTheMachine : (∃ s, initCore clip FontTable.default [0x60#8, 0x05#8] = .next s) ∧
    (80 ≤ 80 ∧ 80 < 0x200) ∧ 0x200 + [0x60#8, 0x05#8].length ≤ 0x202 :=
  ⟨⟨_, rfl⟩, by decide, by decide⟩

theorem witness_SetKeySetsOneKey : 0 < 16 ∧ 15 < 16 ∧ 16 ≤ 16 := by decide

end Sys2Proof.Tests
end

section
/-! SUPPORT. The terminal run states (R96). -/

namespace Sys2Proof.Machine

/-- Settles O7: neither terminal run state is Running, and the step of a core that is not Running is the identity. -/
theorem stoppedOrFaultedStepChangesNothing : Obligations.StoppedOrFaultedStepChangesNothing := by
  intro s hs
  have hnr : s.run ≠ .running := by
    obtain hstop | ⟨f, hfault⟩ := hs
    · simp [hstop]
    · simp [hfault]
  exact step_of_not_running hnr

end Sys2Proof.Machine
end

section
/-! SUPPORT. The two instructions that take a 12-bit address as it is (R112, R150). -/

namespace Sys2Proof.Machine

@[simp] theorem toNat_addrWord (nnn : Addr) : (addrWord nnn).toNat = nnn.toNat :=
  BitVec.toNat_setWidth_of_le (by decide)

theorem encodedAs_jp (nnn : Addr) : EncodedAs (.jp nnn) (0x1000 + nnn.toNat) := by
  intro p
  change decodeWord p (formatA 0x1 nnn) = .instr (.jp nnn)
  simp [decodeWord, fieldG_formatA, fieldNNN_formatA]

theorem encodedAs_ldI (nnn : Addr) : EncodedAs (.ldI nnn) (0xA000 + nnn.toNat) := by
  intro p
  change decodeWord p (formatA 0xA nnn) = .instr (.ldI nnn)
  simp [decodeWord, fieldG_formatA, fieldNNN_formatA]

theorem exec_jp (nnn : Addr) (s : State) : exec (.jp nnn) s = .next (s.setPc (addrWord nnn)) := rfl

theorem exec_ldI (nnn : Addr) (s : State) : exec (.ldI nnn) s = .next (s.setI (addrWord nnn)).advance := rfl

/-- Settles O35: both handlers write `addrWord nnn`, whose value is that of `nnn`, and LD I then goes on by 2. -/
theorem addressImmediates : Obligations.AddressImmediates := by
  intro nnn s
  refine ⟨encodedAs_jp nnn, encodedAs_ldI nnn, ?_, ?_⟩
  · exact ⟨_, exec_jp nnn s, toNat_addrWord nnn, unchanged_setPc _ _ s _⟩
  · exact ⟨_, exec_ldI nnn s, toNat_addrWord nnn, rfl,
      (unchanged_setI (List.mem_singleton_self _) _ s _).trans (unchanged_advance _ _ _)⟩

end Sys2Proof.Machine
end

section
/-! SUPPORT. The three instructions that take an immediate byte to compare or to load (R120, R121, R130). -/

namespace Sys2Proof.Machine

/-- A group whose every word decodes to one instruction on x and kk has the words of format XK (R83). -/
theorem encodedAs_formatXK {g : Nat} (hg : g < 16) {mk : Reg → Byte → Instr}
    (hdec : ∀ p op, fieldG op = g → decodeWord p op = .instr (mk (fieldX op) (fieldKK op))) (x : Reg) (kk : Byte) :
    EncodedAs (mk x kk) (g * 0x1000 + x.toNat * 0x100 + kk.toNat) := by
  intro p
  have h := hdec p (formatXK g x kk) (fieldG_formatXK hg x kk)
  rwa [fieldX_formatXK hg, fieldKK_formatXK hg] at h

theorem encodedAs_seImm (x : Reg) (kk : Byte) : EncodedAs (.seImm x kk) (0x3000 + x.toNat * 0x100 + kk.toNat) :=
  encodedAs_formatXK (g := 0x3) (by decide) (fun p op hg => by simp [decodeWord, hg]) x kk

theorem encodedAs_sneImm (x : Reg) (kk : Byte) : EncodedAs (.sneImm x kk) (0x4000 + x.toNat * 0x100 + kk.toNat) :=
  encodedAs_formatXK (g := 0x4) (by decide) (fun p op hg => by simp [decodeWord, hg]) x kk

theorem encodedAs_ldImm (x : Reg) (kk : Byte) : EncodedAs (.ldImm x kk) (0x6000 + x.toNat * 0x100 + kk.toNat) :=
  encodedAs_formatXK (g := 0x6) (by decide) (fun p op hg => by simp [decodeWord, hg]) x kk

theorem exec_seImm (x : Reg) (kk : Byte) (s : State) : exec (.seImm x kk) s = .next (s.skipIf (s.getV x == kk)) := rfl

theorem exec_sneImm (x : Reg) (kk : Byte) (s : State) : exec (.sneImm x kk) s = .next (s.skipIf (s.getV x != kk)) := rfl

theorem exec_ldImm (x : Reg) (kk : Byte) (s : State) : exec (.ldImm x kk) s = .next (s.setV x kk).advance := rfl

/-- The handlers compare bytes, the rules their values. -/
theorem byte_beq_iff_toNat_eq (a b : Byte) : (a == b) = true ↔ a.toNat = b.toNat :=
  beq_iff_eq.trans BitVec.toNat_inj.symm

theorem byte_bne_iff_toNat_ne (a b : Byte) : (a != b) = true ↔ a.toNat ≠ b.toNat :=
  bne_iff_ne.trans BitVec.toNat_ne_iff_ne.symm

/-- A skip (R124) under any condition that says what the handler's Boolean tests. -/
theorem skipIf_pc_of_iff {c : Bool} {P : Prop} [Decidable P] (s : State) (h : c = true ↔ P) :
    (s.skipIf c).pc = if P then s.pc + 4 else s.pc + 2 :=
  if_congr h rfl rfl

theorem unchanged_setV_advance (x : Reg) (b : Byte) (s : State) : UnchangedBut [x] [] s (s.setV x b).advance :=
  (unchanged_setV (List.mem_singleton_self x) _ s b).trans (unchanged_advance _ _ _)

/-- Settles O37: the two skips are `skipIf` on equal, or unequal, values, and LD writes Vx and goes on by 2. -/
theorem byteImmediates : Obligations.ByteImmediates := by
  intro x kk s
  refine ⟨encodedAs_seImm x kk, encodedAs_sneImm x kk, encodedAs_ldImm x kk, ?_, ?_, ?_⟩
  · exact ⟨_, exec_seImm x kk s, skipIf_pc_of_iff s (byte_beq_iff_toNat_eq _ _), unchanged_skipIf _ _ s _⟩
  · exact ⟨_, exec_sneImm x kk s, skipIf_pc_of_iff s (byte_bne_iff_toNat_ne _ _), unchanged_skipIf _ _ s _⟩
  · exact ⟨_, exec_ldImm x kk s, s.getV_setV_self x kk, rfl, unchanged_setV_advance x kk s⟩

end Sys2Proof.Machine
end

section
/-! SUPPORT. The decoder inverts the encoder (R80 to R90, R97). -/

namespace Sys2Proof

/-- Each format's fields are read back, so each word decodes to the instruction it was assembled from. -/
theorem decodeWord_encode (p : Params) (i : Instr) : decodeWord p (encode i) = .instr i := by
  cases i with
  | cls | ret => rfl
  | jp | call | ldI | jpV0 =>
    simp [encode, decodeWord, fieldG_formatA, fieldNNN_formatA]
  | seImm | sneImm | ldImm | addImm | rnd =>
    simp [encode, decodeWord, fieldG_formatXK, fieldX_formatXK, fieldKK_formatXK]
  | seReg | sneReg =>
    simp [encode, decodeWord, decodeZeroNibble, fieldG_formatXY, fieldX_formatXY, fieldY_formatXY, fieldN_formatXY]
  | ldReg | orReg | andReg | xorReg | addReg | subReg | shr | subn | shl =>
    simp [encode, decodeWord, decodeGroup8, fieldG_formatXY, fieldX_formatXY, fieldY_formatXY, field_3_0_formatXY]
  | drw x y n =>
    have hn : n.toNat < 16 := n.isLt
    simp [encode, decodeWord, fieldG_formatXY, fieldX_formatXY, fieldY_formatXY, fieldN_formatXY, hn]
  | skp | sknp =>
    simp [encode, decodeWord, decodeGroupE, fieldG_formatX, fieldX_formatX, field_7_0_formatX]
  | ldVxDt | ldVxK | ldDtVx | ldStVx | addIVx | ldFVx | ldBVx | ldMemVx | ldVxMem =>
    simp [encode, decodeWord, decodeGroupF, fieldG_formatX, fieldX_formatX, field_7_0_formatX]

/-- Settles O2: the two bytes are put together to the word again, which decodes to its instruction. -/
theorem decodeOfEncodeIsTheInstruction : Obligations.DecodeOfEncodeIsTheInstruction := by
  intro p i rest
  simp [encodeBytes, decodeBytes, decodeWord_encode]

end Sys2Proof
end

section
/-! SUPPORT. A decoded word is its instruction's encoding, group by group (R84 to R90, R97). -/

namespace Sys2Proof

theorem encode_of_decodeGroup0 {p : Params} {w : Word} {i : Instr} (h : decodeGroup0 p w = .instr i) : encode i = w := by
  unfold decodeGroup0 at h
  split at h
  · next hw => cases h; exact BitVec.eq_of_toNat_eq hw.symm
  · next hw => cases h; exact BitVec.eq_of_toNat_eq hw.symm
  · split at h <;> cases h

theorem fieldN_eq_zero_iff {w : Word} : fieldN w = 0#4 ↔ field w 3 0 = 0 := by
  rw [← BitVec.toNat_inj, fieldN_eq, field_3_0]; rfl

/-- With LOOSE_5_9 = false groups 5 and 9 ask for the low nibble 0 (R89). -/
theorem decodeZeroNibble_eq_instr {p : Params} (hp : p.loose59 = false) {w : Word} {i j : Instr} {why : Illegal}
    (h : decodeZeroNibble p w j why = .instr i) : i = j ∧ field w 3 0 = 0 := by
  unfold decodeZeroNibble at h
  split at h
  · next hn => exact ⟨(Decoded.instr.inj h).symm, fieldN_eq_zero_iff.mp (by simpa [hp] using hn)⟩
  · cases h

theorem encode_of_decodeGroup8 {w : Word} (hg : fieldG w = 0x8) {i : Instr} (h : decodeGroup8 w = .instr i) : encode i = w := by
  unfold decodeGroup8 at h
  split at h
  case h_10 => cases h
  all_goals next hn => cases h; exact formatXY_fields hg hn

theorem encode_of_decodeGroupE {w : Word} (hg : fieldG w = 0xE) {i : Instr} (h : decodeGroupE w = .instr i) : encode i = w := by
  unfold decodeGroupE at h
  split at h
  case h_3 => cases h
  all_goals next hk => cases h; exact formatX_fields hg hk

theorem encode_of_decodeGroupF {w : Word} (hg : fieldG w = 0xF) {i : Instr} (h : decodeGroupF w = .instr i) : encode i = w := by
  unfold decodeGroupF at h
  split at h
  case h_10 => cases h
  all_goals next hk => cases h; exact formatX_fields hg hk

/-- Settles O3: in each group the fields and the sub-opcode the decoder has looked at make up the whole word. -/
theorem encodeOfDecodeIsTheWord : Obligations.EncodeOfDecodeIsTheWord := by
  intro p w i hp h
  unfold decodeWord at h
  split at h
  case h_1 => exact encode_of_decodeGroup0 h
  case h_6 hg | h_10 hg =>
    obtain ⟨rfl, hn⟩ := decodeZeroNibble_eq_instr hp h
    exact formatXY_fields hg hn
  case h_9 hg => exact encode_of_decodeGroup8 hg h
  case h_14 hg =>
    cases h
    have hn := formatXY_fields hg rfl
    rwa [field_3_0, ← fieldN_eq] at hn
  case h_15 hg => exact encode_of_decodeGroupE hg h
  case h_16 =>
    have hlt := fieldG_lt w
    have hg : fieldG w = 0xF := by grind
    exact encode_of_decodeGroupF hg h
  case h_2 hg | h_3 hg | h_11 hg | h_12 hg => cases h; exact formatA_fields hg
  case h_4 hg | h_5 hg | h_7 hg | h_8 hg | h_13 hg => cases h; exact formatXK_fields hg

end Sys2Proof
end

section
/-! SUPPORT. The decoder and the opcode map (R85, R91, R100): the rows a word matches are those of the decoder's verdict. -/

namespace Sys2Proof

/-! ### The masks as conditions on the fields the decoder reads -/

section
variable {bits op : Word} (m : String)

@[simp] theorem matchesWord_group (hb : bits.toNat % 4096 = 0) :
    OpcodeRow.matchesWord ⟨m, 0xF000#16, bits⟩ op = decide (fieldG op = bits.toNat / 4096) := by
  rw [matchesWord_F000, fieldG_eq, decide_eq_decide]; omega

@[simp] theorem matchesWord_groupN (hb : bits.toNat % 4096 < 16) :
    OpcodeRow.matchesWord ⟨m, 0xF00F#16, bits⟩ op =
      (decide (fieldG op = bits.toNat / 4096) && decide (field op 3 0 = bits.toNat % 16)) := by
  rw [matchesWord_F00F, fieldG_eq, field_3_0, ← Bool.decide_and, decide_eq_decide]; omega

@[simp] theorem matchesWord_groupKK (hb : bits.toNat % 4096 < 256) :
    OpcodeRow.matchesWord ⟨m, 0xF0FF#16, bits⟩ op =
      (decide (fieldG op = bits.toNat / 4096) && decide (field op 7 0 = bits.toNat % 256)) := by
  rw [matchesWord_F0FF, fieldG_eq, field_7_0, ← Bool.decide_and, decide_eq_decide]; omega

@[simp] theorem matchesWord_whole :
    OpcodeRow.matchesWord ⟨m, 0xFFFF#16, bits⟩ op =
      (decide (fieldG op = bits.toNat / 4096) && decide (op.toNat = bits.toNat)) := by
  rw [matchesWord_FFFF, fieldG_eq, ← Bool.decide_and, decide_eq_decide]; omega

@[simp] theorem matchesWord_maskOf59 (p : Params) (hb : bits.toNat % 4096 = 0) :
    OpcodeRow.matchesWord ⟨m, maskOf59 p, bits⟩ op =
      (decide (fieldG op = bits.toNat / 4096) && (p.loose59 || fieldN op == 0)) := by
  have hn : (fieldN op == 0) = decide (field op 3 0 = 0) := by
    rw [Bool.eq_iff_iff, beq_iff_eq, decide_eq_true_iff]; exact fieldN_eq_zero_iff
  unfold maskOf59
  split
  · next h => rw [matchesWord_group m hb, h]; simp
  · next h => rw [matchesWord_groupN m (by omega), hn]; simp [h, show bits.toNat % 16 = 0 by omega]

end

/-! ### The rows a word matches -/

/-- The mnemonics of the rows of the opcode map that a word matches. -/
def matchedMnemonics (p : Params) (op : Word) : List String :=
  ((opcodeTable p).filter (·.matchesWord op)).map (·.mnemonic)

/-- The mnemonics that a verdict of the decoder stands for. -/
@[simp] def Decoded.mnemonics : Decoded → List String
  | .instr i => [i.mnemonic]
  | .sysNop => []
  | .illegal _ => []

variable {p : Params} {op : Word}

/-- A group-0 word matches CLS or RET when it is that word (R85). -/
theorem matchedMnemonics_group0 (hg : fieldG op = 0x0) : matchedMnemonics p op = (decodeGroup0 p op).mnemonics := by
  unfold decodeGroup0
  split
  case h_1 | h_2 =>
    simp_all [matchedMnemonics, opcodeTable, opcodeRowsLow, opcodeRows8, opcodeRowsHigh, opcodeRowsEF, Instr.mnemonic]
  case h_3 =>
    split <;> simp_all [matchedMnemonics, opcodeTable, opcodeRowsLow, opcodeRows8, opcodeRowsHigh, opcodeRowsEF]

/-- A word of group 5 or 9 matches its one row under the decoder's own test of n (R89). -/
theorem matchedMnemonics_zeroNibble {i : Instr} {why : Illegal}
    (h : fieldG op = 0x5 ∧ i.mnemonic = "SE_Vx__Vy" ∨ fieldG op = 0x9 ∧ i.mnemonic = "SNE_Vx__Vy") :
    matchedMnemonics p op = (decodeZeroNibble p op i why).mnemonics := by
  unfold decodeZeroNibble
  obtain ⟨hg, hi⟩ | ⟨hg, hi⟩ := h <;> split <;>
    simp_all [matchedMnemonics, opcodeTable, opcodeRowsLow, opcodeRows8, opcodeRowsHigh, opcodeRowsEF]

/-- A group-8 word matches the row of its n (R86). -/
theorem matchedMnemonics_group8 (hg : fieldG op = 0x8) : matchedMnemonics p op = (decodeGroup8 op).mnemonics := by
  unfold decodeGroup8
  split <;>
    simp_all [matchedMnemonics, opcodeTable, opcodeRowsLow, opcodeRows8, opcodeRowsHigh, opcodeRowsEF, Instr.mnemonic]

/-- A group-E word matches the row of its kk (R87). -/
theorem matchedMnemonics_groupE (hg : fieldG op = 0xE) : matchedMnemonics p op = (decodeGroupE op).mnemonics := by
  unfold decodeGroupE
  split <;>
    simp_all [matchedMnemonics, opcodeTable, opcodeRowsLow, opcodeRows8, opcodeRowsHigh, opcodeRowsEF, Instr.mnemonic]

/-- A group-F word matches the row of its kk (R88). -/
theorem matchedMnemonics_groupF (hg : fieldG op = 0xF) : matchedMnemonics p op = (decodeGroupF op).mnemonics := by
  unfold decodeGroupF
  split <;>
    simp_all [matchedMnemonics, opcodeTable, opcodeRowsLow, opcodeRows8, opcodeRowsHigh, opcodeRowsEF, Instr.mnemonic]

/-- The rows a word matches are those of the decoder's verdict, group by group. -/
theorem matchedMnemonics_eq (p : Params) (op : Word) : matchedMnemonics p op = (decodeWord p op).mnemonics := by
  unfold decodeWord
  split
  case h_1 hg => exact matchedMnemonics_group0 hg
  case h_6 hg => exact matchedMnemonics_zeroNibble (.inl ⟨hg, rfl⟩)
  case h_10 hg => exact matchedMnemonics_zeroNibble (.inr ⟨hg, rfl⟩)
  case h_9 hg => exact matchedMnemonics_group8 hg
  case h_15 hg => exact matchedMnemonics_groupE hg
  case h_16 =>
    have hlt := fieldG_lt op
    exact matchedMnemonics_groupF (by grind)
  all_goals next hg =>
    simp [matchedMnemonics, opcodeTable, opcodeRowsLow, opcodeRows8, opcodeRowsHigh, opcodeRowsEF, hg, Instr.mnemonic]

theorem wellFormedWord_eq_false_iff : wellFormedWord p op = false ↔
    matchedMnemonics p op = [] ∧ ¬ (p.sysMode = .nop ∧ fieldG op = 0) := by
  have hmask : (op &&& 0xF000#16 == 0x0000#16) = decide (fieldG op = 0) := by
    rw [Bool.eq_iff_iff, beq_iff_eq, decide_eq_true_iff, ← BitVec.toNat_inj, and_mask_F000, fieldG_eq, BitVec.toNat_ofNat]
    omega
  simp [wellFormedWord, hmask, matchedMnemonics, List.filter_eq_nil_iff]

theorem decodeWord_of_group0 (hg : fieldG op = 0x0) : decodeWord p op = decodeGroup0 p op := by
  simp [decodeWord, hg]

theorem decodeGroup0_fault (hp : p.sysMode = .fault) (h0 : op.toNat ≠ 0x00E0) (hE : op.toNat ≠ 0x00EE) :
    decodeGroup0 p op = .illegal .group0 := by
  unfold decodeGroup0
  split
  · contradiction
  · contradiction
  · rw [hp]

theorem decodeGroup0_nop (hp : p.sysMode = .nop) (h0 : op.toNat ≠ 0x00E0) (hE : op.toNat ≠ 0x00EE) :
    decodeGroup0 p op = .sysNop := by
  unfold decodeGroup0
  split
  · contradiction
  · contradiction
  · rw [hp]

/-- The group-0 no-op is a verdict on a group-0 word with SYS_MODE = nop alone (R85). -/
theorem decodeWord_sysNop (h : decodeWord p op = .sysNop) : p.sysMode = .nop ∧ fieldG op = 0 := by
  unfold decodeWord at h
  split at h
  case h_1 hg =>
    unfold decodeGroup0 at h
    split at h
    · cases h
    · cases h
    · split at h
      · cases h
      · next hp => exact ⟨hp, hg⟩
  case h_6 | h_10 => unfold decodeZeroNibble at h; split at h <;> cases h
  case h_9 => unfold decodeGroup8 at h; split at h <;> cases h
  case h_15 => unfold decodeGroupE at h; split at h <;> cases h
  case h_16 => unfold decodeGroupF at h; split at h <;> cases h
  all_goals cases h

/-- With SYS_MODE = nop no group-0 word is illegal (R85). -/
theorem decodeWord_group0_nop (hp : p.sysMode = .nop) (hg : fieldG op = 0x0) (why : Illegal) :
    decodeWord p op ≠ .illegal why := by
  rw [decodeWord_of_group0 hg]
  by_cases h0 : op.toNat = 0x00E0
  · simp [decodeGroup0, h0]
  · by_cases hE : op.toNat = 0x00EE
    · simp [decodeGroup0, hE]
    · simp [decodeGroup0_nop hp h0 hE]

/-- Settles O4: the rows matched are those of the verdict, and the only verdict beside an instruction that is not illegal is the
no-op. -/
theorem decoderAgreesWithTheOpcodeMap : Obligations.DecoderAgreesWithTheOpcodeMap := by
  intro p w
  have hrows := matchedMnemonics_eq p w
  refine ⟨fun i hi => by rw [hi] at hrows; exact hrows, ?_⟩
  rw [wellFormedWord_eq_false_iff, hrows]
  cases hd : decodeWord p w with
  | instr i => simp
  | sysNop => simp [decodeWord_sysNop hd]
  | illegal why =>
    have : ¬ (p.sysMode = .nop ∧ fieldG w = 0) := fun ⟨hp, hg⟩ => decodeWord_group0_nop hp hg why hd
    simp [this]

/-- Settles O5: such a word is of group 0, whose other words SYS_MODE decides. -/
theorem groupZeroWordsFollowSysMode : Obligations.GroupZeroWordsFollowSysMode := by
  intro p w hlt h0 hE
  have hg : fieldG w = 0x0 := by rw [fieldG_eq]; omega
  rw [decodeWord_of_group0 hg]
  exact ⟨fun hp => decodeGroup0_fault hp h0 hE, fun hp => decodeGroup0_nop hp h0 hE⟩

end Sys2Proof
end

section
/-! SUPPORT. The frame of the dispatch: what any handler that answers a next state may have written (R40, R205). -/

namespace Sys2Proof.Machine

variable {i : Instr} {s t : State}

/-- The frame of every handler: each shape of handler keeps its own. -/
theorem exec_frame (h : exec i s = .next t) : FaultOrFrame (destRegs i) (destParts i) s t := by
  cases i with
  | cls => exact execCls_frame h
  | ret => exact execRet_frame h
  | call => exact execCall_frame h
  | jp | jpV0 => exact frame_of_next (unchanged_setPc _ _ s _) h
  | seImm | sneImm | seReg | sneReg => exact frame_of_next (unchanged_skipIf _ _ s _) h
  | ldImm | addImm | ldReg | orReg | andReg | xorReg | ldVxDt => exact writeReg_frame h
  | addReg | subReg | shr | subn | shl => exact flagAlu_frame h
  | ldI => exact execLdI_frame h
  | rnd => exact execRnd_frame h
  | drw => exact execDrw_frame h
  | skp | sknp => exact skipOnKey_frame h
  | ldVxK => exact execLdVxK_frame h
  | ldDtVx => exact execLdDtVx_frame h
  | ldStVx => exact execLdStVx_frame h
  | addIVx => exact execAddIVx_frame h
  | ldFVx => exact execLdFVx_frame h
  | ldBVx => exact execLdBVx_frame h
  | ldMemVx => exact execLdMemVx_frame h
  | ldVxMem => exact execLdVxMem_frame h

/-! ### What no handler writes -/

/-- What a fault entry and the handler's frame both keep, the handler keeps. -/
theorem exec_keeps {α : Type} (f : State → α) (hfault : ∀ c, f (s.enterFault c) = f s)
    (hframe : UnchangedBut (destRegs i) (destParts i) s t → f t = f s) (h : exec i s = .next t) : f t = f s := by
  obtain ⟨c, rfl⟩ | hf := exec_frame h
  · exact hfault c
  · exact hframe hf

theorem exec_params (h : exec i s = .next t) : t.params = s.params :=
  exec_keeps State.params (fun _ => rfl) (fun hf => hf.params) h

theorem exec_romLen (h : exec i s = .next t) : t.romLen = s.romLen :=
  exec_keeps State.romLen (fun _ => rfl) (fun hf => hf.romLen) h

theorem exec_key (h : exec i s = .next t) : t.key = s.key :=
  exec_keeps State.key (fun _ => rfl) (fun hf => hf.key) h

theorem exec_font (h : exec i s = .next t) : t.mem.font = s.mem.font :=
  exec_keeps (fun u => u.mem.font) (fun _ => rfl) (fun hf => hf.font) h

/-- Only CALL and RET write the stack (R40). -/
theorem exec_stack (h : exec i s = .next t) (hcall : ∀ nnn, i ≠ .call nnn) (hret : i ≠ .ret) :
    t.sp = s.sp ∧ t.stack = s.stack := by
  have hpart : Part.stack ∉ destParts i := by
    cases i <;> simp_all [destParts]
  obtain ⟨c, rfl⟩ | hf := exec_frame h
  · exact ⟨rfl, rfl⟩
  · exact hf.stack hpart

/-! ### Memory -/

theorem unlisted_of_font {m m' : Memory} (h : m'.font = m.font) (a : Nat) : m'.unlisted a = m.unlisted a := by
  simp [Memory.unlisted, h]

theorem exec_mem_wf (h : exec i s = .next t) (hm : s.mem.wf = true) : t.mem.wf = true := by
  obtain he | ⟨bs, -, hw, he⟩ := exec_mem_cases h
  · rwa [he]
  · rw [he]
    exact wf_storeBlock hm hw

/-- With PROTECT_RESERVED = true no handler stores below 0x200 (R63). -/
theorem exec_mem_reserved (h : exec i s = .next t) (hp : s.params.protectReserved = true) {a : Nat} (ha : a < 0x200) :
    t.mem.read a = s.mem.read a := by
  obtain he | ⟨bs, -, hw, he⟩ := exec_mem_cases h
  · rw [he]
  · rw [he]
    refine storeBlock_read_of_ne s bs fun k hk hka => ?_
    have hle := (hw k hk).2 hp
    omega

/-! ### The stack pointer -/

theorem toNat_sub_one {b : Byte} (hb : b ≠ 0#8) : (b - 1).toNat = b.toNat - 1 := by
  have h0 : b.toNat ≠ 0 := fun e => hb (BitVec.eq_of_toNat_eq e)
  have hlt := b.isLt
  rw [BitVec.toNat_sub, show (1 : Byte).toNat = 1 from rfl]
  omega

theorem exec_sp_le (h : exec i s = .next t) (hs : s.sp.toNat ≤ 16) : t.sp.toNat ≤ 16 := by
  by_cases hc : ∃ nnn, i = .call nnn
  · obtain ⟨nnn, rfl⟩ := hc
    obtain rfl | ⟨hlt, rfl⟩ := execCall_cases h
    · exact hs
    · rw [State.setPc_sp, State.push_sp, BitVec.toNat_add, show (1 : Byte).toNat = 1 from rfl]
      omega
  · by_cases hr : i = .ret
    · subst hr
      obtain rfl | ⟨hlt, rfl⟩ := execRet_cases h
      · exact hs
      · exact Nat.le_of_lt hlt
    · rw [(exec_stack h (fun nnn e => hc ⟨nnn, e⟩) hr).1]
      exact hs

/-! ### The invariant (R44) -/

/-- The invariant speaks of memory, SP, the ROM length and the parameters alone. -/
theorem Inv.congr (hs : Inv s) (hm : t.mem = s.mem) (hsp : t.sp = s.sp) (hl : t.romLen = s.romLen) (hp : t.params = s.params) :
    Inv t where
  memWf := hm ▸ hs.memWf
  spRange := hsp ▸ hs.spRange
  romLenRange := hl ▸ hs.romLenRange
  reserved := by
    rw [hm, hp]
    exact hs.reserved

theorem exec_inv (h : exec i s = .next t) (hs : Inv s) : Inv t where
  memWf := exec_mem_wf h hs.memWf
  spRange := exec_sp_le h hs.spRange
  romLenRange := exec_romLen h ▸ hs.romLenRange
  reserved hp a ha := by
    rw [exec_params h] at hp
    rw [exec_mem_reserved h hp ha, unlisted_of_font (exec_font h)]
    exact hs.reserved hp a ha

/-- What a stop, a fault entry, the write of `opcode`, the group-0 no-op, the handlers and the end of a step all keep, every step
keeps. -/
theorem step_preserves {P : State → Prop} (hstop : ∀ s, P s → P (s.setRun .stopped))
    (hfault : ∀ s c, P s → P (s.enterFault c)) (hop : ∀ s w, P s → P (s.setOpcode w)) (hnop : ∀ s, P s → P (execSysNop s))
    (hexec : ∀ i s t, exec i s = .next t → P s → P t) (hend : ∀ s, P s → P (endOfStep s)) (h : step s = .next t) (hs : P s) :
    P t := by
  by_cases hr : s.run = .running
  · obtain ⟨-, rfl⟩ | ⟨-, c, -, rfl⟩ | ⟨w, -, ⟨why, -, rfl⟩ | ⟨-, rfl⟩ | ⟨i, u, -, hu, rfl⟩⟩ := step_cases hr h
    · exact hstop _ hs
    · exact hfault _ _ hs
    · exact hfault _ _ (hop _ _ hs)
    · exact hend _ (hnop _ (hop _ _ hs))
    · exact hend _ (hexec _ _ _ hu (hop _ _ hs))
  · rw [step_of_not_running hr] at h
    cases h
    exact hs

/-- Settles O19: beside the handlers nothing in a step writes what the invariant speaks of. -/
theorem stepKeepsInvariant : Obligations.StepKeepsInvariant := by
  intro s t hs h
  refine step_preserves (P := Inv) ?_ ?_ ?_ ?_ (fun _ _ _ => exec_inv) ?_ h hs
  · exact fun _ hs => hs.congr rfl rfl rfl rfl
  · exact fun _ _ hs => hs.congr rfl rfl rfl rfl
  · exact fun _ _ hs => hs.congr rfl rfl rfl rfl
  · exact fun _ hs => hs.congr rfl rfl rfl rfl
  · exact fun s hs => hs.congr (by simp) (by simp) (by simp) (by simp)

end Sys2Proof.Machine
end

section
/-! SUPPORT. Where PC goes (R26, R111 to R113, R124, R151): on from an instruction inside memory, to an address of 12 bits, to
nnn + V0, or to a return address. -/

namespace Sys2Proof.Machine

variable {i : Instr} {s t : State}

/-- Every handler but the four that jump leaves PC, at a stall or a fault, or adds 2 or 4 to it. -/
def GoesOn (s t : State) : Prop :=
  t.pc = s.pc ∨ t.pc = s.pc + 2 ∨ t.pc = s.pc + 4

theorem goesOn_of_next {u : State} (hu : GoesOn s u) (h : (Host.Outcome.next u : Out) = .next t) : GoesOn s t := by
  obtain rfl := Host.Outcome.next.inj h
  exact hu

theorem goesOn_of_guarded {o : Option FaultCause} {u : State} (hu : GoesOn s u) (h : guarded o s u = .next t) : GoesOn s t := by
  obtain ⟨-, rfl⟩ | ⟨c, -, rfl⟩ := guarded_next_cases h
  · exact hu
  · exact .inl rfl

theorem skipIf_goesOn (s : State) (c : Bool) : GoesOn s (s.skipIf c) := by
  cases c
  · exact .inr (.inl rfl)
  · exact .inr (.inr rfl)

theorem writeReg_goesOn {x : Reg} {b : Byte} (h : writeReg x b s = .next t) : GoesOn s t :=
  goesOn_of_next (.inr (.inl rfl)) h

theorem flagAlu_goesOn {x y : Reg} {flag result : Byte → Byte → Byte} (h : flagAlu x y flag result s = .next t) : GoesOn s t :=
  goesOn_of_next (.inr (.inl (by simp [writeFlagAndReg_pc]))) h

theorem countKeyDraw_pc (s : State) : (countKeyDraw s).pc = s.pc := by
  unfold countKeyDraw
  split <;> rfl

theorem execLdVxK_goesOn {x : Reg} (h : execLdVxK x s = .next t) : GoesOn s t := by
  unfold execLdVxK at h
  split at h
  · exact goesOn_of_next (.inl rfl) h
  · have hw := writeReg_goesOn h
    simpa only [GoesOn, countKeyDraw_pc] using hw

theorem writeRegs_pc (s : State) (k : Nat) (bs : List Byte) : (writeRegs s k bs).pc = s.pc := by
  obtain ⟨v, hv⟩ := writeRegs_eq s k bs
  rw [hv]

/-- The instructions that put an address in PC. -/
def Jumps : Instr → Prop
  | .ret | .jp _ | .call _ | .jpV0 _ => True
  | _ => False

theorem exec_goesOn (hj : ¬ Jumps i) (h : exec i s = .next t) : GoesOn s t := by
  cases i with
  | ret | jp | call | jpV0 => exact absurd trivial hj
  | seImm | sneImm | seReg | sneReg => exact goesOn_of_next (skipIf_goesOn s _) h
  | addReg | subReg | shr | subn | shl => exact flagAlu_goesOn h
  | skp | sknp => exact goesOn_of_guarded (skipIf_goesOn s _) h
  | ldVxK => exact execLdVxK_goesOn h
  | drw | ldBVx | ldMemVx => exact goesOn_of_guarded (.inr (.inl rfl)) h
  | ldVxMem => exact goesOn_of_guarded (.inr (.inl (by simp [writeRegs_pc]))) h
  | cls | ldImm | addImm | ldReg | orReg | andReg | xorReg | ldI | rnd | ldVxDt | ldDtVx | ldStVx | addIVx | ldFVx =>
    exact goesOn_of_next (.inr (.inl rfl)) h

theorem toNat_pc_add_two (h : s.pc.toNat ≤ 0xFFF) : (s.pc + 2).toNat = s.pc.toNat + 2 := by
  rw [BitVec.toNat_add, show (2 : Word).toNat = 2 from rfl]; omega

theorem GoesOn.pc_le (h : GoesOn s t) (hpc : s.pc.toNat ≤ 0xFFF) : t.pc.toNat ≤ 0x1003 := by
  have h4 : (s.pc + 4).toNat = s.pc.toNat + 4 := by
    rw [BitVec.toNat_add, show (4 : Word).toNat = 4 from rfl]; omega
  obtain e | e | e := h
  · rw [e]; omega
  · rw [e, toNat_pc_add_two hpc]; omega
  · rw [e, h4]; omega

/-- The sum of JP V0 is at most 0xFFF + 0xFF, wrapped or not (R151). -/
theorem jpV0_sum_le (p : Params) (nnn : Addr) (b : Byte) : wrapAddr p (nnn.toNat + b.toNat) ≤ 0x10FE := by
  have hn := nnn.isLt
  have hb := b.isLt
  unfold wrapAddr
  split <;> omega

theorem toNat_addrWord_le (nnn : Addr) : (addrWord nnn).toNat ≤ 0xFFF := by
  have hn := nnn.isLt
  rw [toNat_addrWord]; omega

/-! ### The bounds kept by the handlers -/

theorem PcInv.congr (hs : PcInv s) (hpc : t.pc = s.pc) (hsp : t.sp = s.sp) (hst : t.stack = s.stack) : PcInv t where
  pcBound := hpc ▸ hs.pcBound
  returnBound := by
    rw [hsp, hst]
    exact hs.returnBound

/-- CALL inside memory pushes a return address in bounds (R113). -/
theorem execCall_pcInv {nnn : Addr} (hpc : s.pc.toNat ≤ 0xFFF) (hs : PcInv s) (h : execCall nnn s = .next t) : PcInv t := by
  obtain rfl | ⟨hlt, rfl⟩ := execCall_cases h
  · exact hs.congr rfl rfl rfl
  · refine ⟨Nat.le_trans (toNat_addrWord_le nnn) (by omega), fun j hj hjs => ?_⟩
    have hsp : (s.sp + 1).toNat = s.sp.toNat + 1 := by
      rw [BitVec.toNat_add, show (1 : Byte).toNat = 1 from rfl]; omega
    simp only [State.setPc_sp, State.push_sp, hsp] at hjs
    simp only [State.setPc_stack, State.push_stack, Vector.getElem_set]
    split
    · rw [toNat_pc_add_two hpc]; omega
    · exact hs.returnBound j hj (by omega)

/-- RET takes a return address that is in bounds (R111). -/
theorem execRet_pcInv (hs : PcInv s) (h : execRet s = .next t) : PcInv t := by
  unfold execRet at h
  split at h
  · cases h
    exact hs.congr rfl rfl rfl
  · next h0 =>
    split at h
    · next hlt =>
      cases h
      have hsp := toNat_sub_one h0
      have hne : s.sp.toNat ≠ 0 := fun e => h0 (BitVec.eq_of_toNat_eq e)
      refine ⟨?_, fun j hj hjs => hs.returnBound j hj ?_⟩
      · have hb := hs.returnBound _ hlt (by omega)
        exact Nat.le_trans hb (by omega)
      · rw [State.popPc_sp] at hjs
        omega
    · cases h

/-- A handler of an instruction fetched inside memory keeps the bounds. -/
theorem exec_pcInv (hpc : s.pc.toNat ≤ 0xFFF) (hs : PcInv s) (h : exec i s = .next t) : PcInv t := by
  by_cases hj : Jumps i
  · cases i with
    | ret => exact execRet_pcInv hs h
    | call => exact execCall_pcInv hpc hs h
    | jp nnn =>
      cases h
      exact ⟨Nat.le_trans (toNat_addrWord_le nnn) (by omega), hs.returnBound⟩
    | jpV0 nnn =>
      cases h
      refine ⟨?_, hs.returnBound⟩
      have hle := jpV0_sum_le s.params nnn (s.getV 0#4)
      rw [State.setPc_pc, BitVec.toNat_ofNat]
      omega
    | _ => exact hj.elim
  · have hst := exec_stack h (fun nnn e => hj (e ▸ trivial)) (fun e => hj (e ▸ trivial))
    have hle := (exec_goesOn hj h).pc_le hpc
    refine ⟨by omega, ?_⟩
    rw [hst.1, hst.2]
    exact hs.returnBound

theorem execSysNop_pcInv (hpc : s.pc.toNat ≤ 0xFFF) (hs : PcInv s) : PcInv (execSysNop s) where
  pcBound := by
    change (s.pc + 2).toNat ≤ 0x10FE
    rw [toNat_pc_add_two hpc]; omega
  returnBound := hs.returnBound

theorem endOfStep_pcInv (hs : PcInv s) : PcInv (endOfStep s) :=
  hs.congr (endOfStep_pc s) (endOfStep_sp s) (endOfStep_stack s)

theorem Fetches.pc_le {w : Word} (h : Fetches s w) : s.pc.toNat ≤ 0xFFF := (fetch16_eq_ok.mp h.2.2).1

/-- Settles O20: a step that writes PC has fetched inside memory. -/
theorem stepKeepsPcBounds : Obligations.StepKeepsPcBounds := by
  intro s t _ hs h
  by_cases hr : s.run = .running
  · have hop : ∀ w, PcInv (s.setOpcode w) := fun _ => hs.congr rfl rfl rfl
    obtain ⟨-, rfl⟩ | ⟨-, c, -, rfl⟩ | ⟨w, hw, ⟨why, -, rfl⟩ | ⟨-, rfl⟩ | ⟨i, u, -, hu, rfl⟩⟩ := step_cases hr h
    · exact hs.congr rfl rfl rfl
    · exact hs.congr rfl rfl rfl
    · exact hs.congr rfl rfl rfl
    · exact endOfStep_pcInv (execSysNop_pcInv (s := s.setOpcode w) hw.pc_le (hop w))
    · exact endOfStep_pcInv (exec_pcInv (s := s.setOpcode w) hw.pc_le (hop w) hu)
  · rw [step_of_not_running hr] at h
    cases h
    exact hs

end Sys2Proof.Machine
end

section
/-! SUPPORT. The host's actions, the terminal run states under them, and runs from the start (R215 to R223, R240 to
R246). -/

namespace Sys2Proof.Machine

variable {s t : State}

/-! ### Host actions -/

theorem setKey_of_lt {k : Nat} (hk : k < 16) (b : Bool) (s : State) : setKey k b s = .next { s with key := s.key.set k b } := by
  simp [setKey, hk]

theorem setKey_of_ge {k : Nat} (hk : 16 ≤ k) (b : Bool) (s : State) : setKey k b s = .refused (.keyNumber k) := by
  simp [setKey, Nat.not_lt.mpr hk]

theorem keyDown_set {k : Nat} (hk : k < 16) (b : Bool) (s : State) (j : Nat) :
    ({ s with key := s.key.set k b } : State).keyDown j = if j = k then b else s.keyDown j := by
  unfold State.keyDown
  by_cases hj : j < 16
  · simp [hj, Vector.getElem_set, eq_comm]
  · simp [hj, show j ≠ k by omega]

/-- Settles O60: the key is set in the vector of keys, which has 16 of them. -/
theorem setKeySetsOneKey : Obligations.SetKeySetsOneKey := by
  intro k b s
  refine ⟨fun hk => ⟨_, setKey_of_lt hk b s, rfl, ?_, fun j hj => ?_⟩, fun hk => setKey_of_ge hk b s⟩
  · rw [keyDown_set hk, if_pos rfl]
  · rw [keyDown_set hk, if_neg hj]

/-- Settles O59: by the definition, the flag's value beside the state with the flag cleared. -/
theorem consumeRedrawReturnsAndClears : Obligations.ConsumeRedrawReturnsAndClears :=
  fun _ => ⟨rfl, rfl, rfl⟩

/-- A host action writes the redraw flag or the keys alone. -/
theorem onEvent_cases {e : Event} (h : onEvent e s = .next t) :
    (e = .step ∧ step s = .next t) ∨ t = { s with redraw := t.redraw, key := t.key } := by
  cases e with
  | step => exact .inl ⟨rfl, h⟩
  | consumeRedraw =>
    cases h
    exact .inr rfl
  | setKey k b =>
    by_cases hk : k < 16
    · obtain rfl := Host.Outcome.next.inj ((setKey_of_lt hk b s).symm.trans h)
      exact .inr rfl
    · simp [onEvent, setKey_of_ge (Nat.not_lt.mp hk)] at h

theorem runEvents_cons {e : Event} {es : List Event} (h : runEvents (e :: es) s = .next t) :
    ∃ u, onEvent e s = .next u ∧ runEvents es u = .next t := by
  unfold runEvents at h
  split at h
  · next u hu => exact ⟨u, hu, h⟩
  · cases h
  · cases h

/-! ### The terminal run states -/

theorem onEvent_of_not_running (hr : s.run ≠ .running) {e : Event} (h : onEvent e s = .next t) :
    t = { s with redraw := t.redraw, key := t.key } := by
  obtain ⟨-, h⟩ | ht := onEvent_cases h
  · rw [step_of_not_running hr] at h
    cases h
    rfl
  · exact ht

theorem runEvents_of_not_running : ∀ {es : List Event} {s : State}, s.run ≠ .running → runEvents es s = .next t →
    t = { s with redraw := t.redraw, key := t.key }
  | [], s, _, h => by
    cases h
    rfl
  | e :: es, s, hr, h => by
    obtain ⟨u, hu, h⟩ := runEvents_cons h
    have hu := onEvent_of_not_running hr hu
    have hur : u.run ≠ .running := by
      rw [hu]
      exact hr
    have ht := runEvents_of_not_running hur h
    rw [hu] at ht
    exact ht

/-- Settles O22: a core that is not Running has identity steps, and the host's actions write the redraw flag and the keys alone. -/
theorem endedCoreIsFrozen : Obligations.EndedCoreIsFrozen := by
  intro s t es hs h
  refine runEvents_of_not_running ?_ h
  obtain hstop | ⟨f, hf⟩ := hs
  · simp [show s.run = .stopped from hstop]
  · simp [hf]

/-! ### Reset and the start with a ROM -/

/-- The state the host's start with a ROM leaves (R41, R42). -/
def initState (p : Params) (font : FontTable) (rom : List Byte) : State :=
  { State.reset with
    mem := loadBytes { font := font, cells := [] } 0x200 rom
    romLen := rom.length
    params := p }

theorem initCore_of_le {rom : List Byte} (h : rom.length ≤ 3584) (p : Params) (font : FontTable) :
    initCore p font rom = .next (initState p font rom) := by
  simp [initCore, wellFormedRom, h, initState]

theorem initCore_of_gt {rom : List Byte} (h : 3584 < rom.length) (p : Params) (font : FontTable) :
    initCore p font rom = .fault (.romTooLong rom.length) := by
  simp [initCore, wellFormedRom, Nat.not_le.mpr h]

theorem initCore_next {p : Params} {font : FontTable} {rom : List Byte} (h : initCore p font rom = .next s) :
    rom.length ≤ 3584 ∧ s = initState p font rom := by
  by_cases hl : rom.length ≤ 3584
  · rw [initCore_of_le hl] at h
    exact ⟨hl, (Host.Outcome.next.inj h).symm⟩
  · rw [initCore_of_gt (Nat.not_le.mp hl)] at h
    cases h

theorem stopTest_initState_nil {p : Params} (hp : p.stopCmp = .ge) (font : FontTable) : stopTest (initState p font []) = true := by
  simp [stopTest, initState, State.reset, hp]

/-- Settles O57: the length is all that is tested, and the empty ROM ends where the first fetch would be. -/
theorem romLengthIsCheckedFirst : Obligations.RomLengthIsCheckedFirst := by
  intro p font rom
  refine ⟨fun hl => ⟨_, initCore_of_le hl p font, rfl⟩, fun hl => initCore_of_gt hl p font, fun s hs hp => ?_⟩
  obtain ⟨-, rfl⟩ := initCore_next hs
  rw [step_of_running rfl, runningStep_of_stop (stopTest_initState_nil hp font)]
  rfl

theorem read_loadBytes {m : Memory} {base : Nat} {bytes : List Byte} {j : Nat} (h : j < bytes.length) :
    (loadBytes m base bytes).read (base + j) = bytes[j] := by
  have hnd : ((List.range bytes.length).map (base + ·)).Nodup :=
    List.nodup_range.map fun _ _ => Nat.add_left_cancel
  have hr := read_writeBytes_getElem m bytes (k := j) (by simpa using h) h hnd
  rwa [List.getElem_map, List.getElem_range] at hr

theorem read_loadBytes_outside {m : Memory} {base : Nat} {bytes : List Byte} {a : Nat} (h : a < base ∨ base + bytes.length ≤ a) :
    (loadBytes m base bytes).read a = m.read a := by
  refine read_writeBytes_of_not_mem m bytes ?_
  simp only [List.mem_map, List.mem_range, not_exists, not_and]
  intro j hj
  omega

theorem unlisted_font {m : Memory} {a : Nat} (h : a < 80) : m.unlisted a = m.font[a] := by
  simp [Memory.unlisted, h]

theorem unlisted_zero {m : Memory} {a : Nat} (h : 80 ≤ a) : m.unlisted a = 0#8 := by
  simp [Memory.unlisted, Nat.not_lt.mpr h]

/-- Below the ROM and after it memory is as if nothing had been written. -/
theorem read_initState_outside (p : Params) (font : FontTable) (rom : List Byte) {a : Nat} (h : a < 0x200 ∨ 0x200 + rom.length ≤ a) :
    (initState p font rom).mem.read a = Memory.unlisted { font := font, cells := [] } a :=
  read_loadBytes_outside h

/-- Settles O58: the ROM is the one block written, at different addresses, over memory with nothing listed. -/
theorem initializeLaysOutTheMachine : Obligations.InitializeLaysOutTheMachine := by
  intro p font rom s hs
  obtain ⟨-, rfl⟩ := initCore_next hs
  refine ⟨fun j hj => ?_, fun j hj => read_loadBytes hj, fun a h80 ha => ?_, fun r => ?_, rfl, rfl, rfl, fun j hj => ?_, rfl, rfl,
    fun r c => ?_, rfl, fun k hk => ?_, rfl, rfl, rfl⟩
  · rw [read_initState_outside p font rom (.inl (by omega)), unlisted_font hj]
  · rw [read_initState_outside p font rom ha, unlisted_zero h80]
  · simp [State.getV, initState, State.reset]
  · simp [initState, State.reset]
  · exact pixel_blankDisplay r c
  · simp [initState, State.reset]

theorem initState_inv {rom : List Byte} (hl : rom.length ≤ 3584) (p : Params) (font : FontTable) : Inv (initState p font rom) where
  memWf := by
    refine wf_writeBytes rom (Memory.wf_empty font) fun a ha => ?_
    obtain ⟨j, hj, rfl⟩ := List.mem_map.mp ha
    have := List.mem_range.mp hj
    omega
  spRange := Nat.zero_le 16
  romLenRange := hl
  reserved _ a ha := by
    rw [read_initState_outside p font rom (.inl ha)]
    exact unlisted_of_font (by simp [initState, loadBytes]) a

theorem pcInv_initState (p : Params) (font : FontTable) (rom : List Byte) : PcInv (initState p font rom) where
  pcBound := show 0x200 ≤ 0x10FE by decide
  returnBound _ _ hj := absurd hj (Nat.not_lt_zero _)

/-- Settles O18: reset is the state of the start with the empty ROM. -/
theorem resetMeetsTheInvariants : Obligations.ResetMeetsTheInvariants :=
  ⟨initState_inv (rom := []) (by decide) Params.default FontTable.default,
   pcInv_initState Params.default FontTable.default []⟩

/-! ### Runs -/

theorem onEvent_inv {e : Event} (hs : Inv s) (h : onEvent e s = .next t) : Inv t := by
  obtain ⟨-, h⟩ | ht := onEvent_cases h
  · exact stepKeepsInvariant s t hs h
  · rw [ht]
    exact hs.congr rfl rfl rfl rfl

/-- A state of the invariant answers every event, but a key number from 16 on (R217). -/
theorem onEvent_answers (hs : Inv s) (e : Event) :
    (∃ t, onEvent e s = .next t) ∨ ∃ k, 16 ≤ k ∧ onEvent e s = .refused (.keyNumber k) := by
  cases e with
  | step => exact .inl (step_answers hs.spRange)
  | consumeRedraw => exact .inl ⟨_, rfl⟩
  | setKey k b =>
    by_cases hk : k < 16
    · exact .inl ⟨_, setKey_of_lt hk b s⟩
    · exact .inr ⟨k, Nat.not_lt.mp hk, setKey_of_ge (Nat.not_lt.mp hk) b s⟩

/-- A run from a state of the invariant ends in one, or at a refused key number. -/
theorem runEvents_inv : ∀ (es : List Event) {s : State}, Inv s →
    (∃ t, runEvents es s = .next t ∧ Inv t) ∨ ∃ k, 16 ≤ k ∧ runEvents es s = .refused (.keyNumber k)
  | [], s, hs => .inl ⟨s, rfl, hs⟩
  | e :: es, s, hs => by
    obtain ⟨u, hu⟩ | ⟨k, hk, hr⟩ := onEvent_answers hs e
    · have ih := runEvents_inv es (onEvent_inv hs hu)
      simpa [runEvents, hu] using ih
    · exact .inr ⟨k, hk, by simp [runEvents, hr]⟩

/-- Settles O21: the start meets the invariant, and a run from a state of the invariant never leaves it. -/
theorem runsFromInitializeKeepInvariant : Obligations.RunsFromInitializeKeepInvariant := by
  intro p font rom s es hs
  obtain ⟨hl, rfl⟩ := initCore_next hs
  obtain ⟨t, ht, hinv⟩ | ⟨k, hk, hr⟩ := runEvents_inv es (initState_inv hl p font)
  · rw [ht]
    refine ⟨fun u hu => ?_, fun r hr => (by cases hr), fun r hr => (by cases hr)⟩
    obtain rfl := Host.Outcome.next.inj hu
    exact hinv
  · rw [hr]
    refine ⟨fun u hu => (by cases hu), fun r hr => (by cases hr), fun r hr => ⟨k, hk, ?_⟩⟩
    exact (Host.Outcome.refused.inj hr).symm

end Sys2Proof.Machine
end

section
/-! SUPPORT. The run state through a step: where it stops, where it faults and with what (R93 to R95, R200 to R207). -/

namespace Sys2Proof.Machine

variable {i : Instr} {s t : State} {w : Word}

/-! ### The fetch -/

theorem fetches_iff : Fetches s w ↔ s.run = .running ∧ stopTest s = false ∧ s.pc.toNat ≤ 0xFFF ∧ secondByteAddr s ≤ 0xFFF ∧
    w = wordOfBytes (s.mem.read s.pc.toNat) (s.mem.read (secondByteAddr s)) := by
  rw [Fetches, fetch16_eq_ok]

theorem fetch16_of_pc_gt (h : s.pc.toNat > 0xFFF) : fetch16 s = .error (.fetch s.pc.toNat) := by
  simp [fetch16, h]

theorem fetch16_of_second_gt (hpc : s.pc.toNat ≤ 0xFFF) (h : secondByteAddr s > 0xFFF) :
    fetch16 s = .error (.fetch (secondByteAddr s)) := by
  simp [fetch16, Nat.not_lt.mpr hpc, h]

theorem step_of_fetch_error {c : FaultCause} (hr : s.run = .running) (hs : stopTest s = false) (h : fetch16 s = .error c) :
    step s = .next (s.enterFault c) := by
  simp [step_of_running hr, runningStep, hs, h, raise]

/-- Settles O9: the two checks of the fetch, the second byte being at 0x1000 for PC = 0xFFF. -/
theorem fetchAboveMemoryFaults : Obligations.FetchAboveMemoryFaults := by
  intro s hr hs
  refine ⟨fun hpc => step_of_fetch_error hr hs (fetch16_of_pc_gt hpc), fun hpc hw => ?_⟩
  have h2 : secondByteAddr s = 0x1000 := by rw [secondByteAddr, blockAddr_unwrapped hw, hpc]
  have hf := fetch16_of_second_gt (Nat.le_of_eq hpc) (by omega)
  rw [h2] at hf
  exact step_of_fetch_error hr hs hf

/-! ### The verdict carried out -/

theorem step_of_instr (h : Fetches s w) (hd : decodeWord s.params w = .instr i) : step s = finishStep (exec i (s.setOpcode w)) := by
  rw [step_of_fetches h, hd]
  rfl

theorem endOfStep_of_faulted {f : FaultRecord} (h : s.run = .faulted f) : endOfStep s = s := by
  simp [endOfStep, h]

/-- No handler refuses. -/
theorem exec_not_refused (r : Refusal) : exec i s ≠ .refused r := by
  have hg : ∀ (o : Option FaultCause) (u : State), guarded o s u ≠ .refused r := by
    intro o u h
    cases o <;> cases h
  intro h
  cases i with
  | ret | call =>
    simp only [exec, execRet, execCall] at h
    split at h
    · cases h
    · split at h <;> cases h
  | ldVxK =>
    simp only [exec, execLdVxK] at h
    split at h <;> cases h
  | drw | skp | sknp | ldBVx | ldMemVx | ldVxMem => exact hg _ _ h
  | _ => cases h

/-- Settles O6: the handler is followed by the end of the step, which ticks a Running core alone. -/
theorem stepRunsTheDecodedInstruction : Obligations.StepRunsTheDecodedInstruction := by
  intro s w i hr hs hpc h2 hw hd
  have hstep := step_of_instr (fetches_iff.mpr ⟨hr, hs, hpc, h2, hw⟩) hd
  refine ⟨fun u hu hur => ?_, fun u f hu huf => ?_, fun r hf => ?_, fun r => exec_not_refused r⟩
  · rw [hstep, hu, finishStep, endOfStep_of_running hur]
  · rw [hstep, hu, finishStep, endOfStep_of_faulted huf]
  · rw [hstep, hf, finishStep]

theorem step_of_illegal {why : Illegal} (h : Fetches s w) (hd : decodeWord s.params w = .illegal why) :
    step s = .next ((s.setOpcode w).enterFault .decode) := by
  rw [step_of_fetches h, hd]
  rfl

theorem step_of_sysNop (h : Fetches s w) (hd : decodeWord s.params w = .sysNop) :
    step s = .next (timerTick (s.setOpcode w).advance) := by
  have hr : (s.setOpcode w).advance.run = .running := h.1
  rw [step_of_fetches h, hd, runDecoded, finishStep, execSysNop, endOfStep_of_running hr]

/-- Settles O10: such a word is what the decoder calls illegal. -/
theorem illegalWordRaisesDecodeFault : Obligations.IllegalWordRaisesDecodeFault := by
  intro s w hw hwf
  obtain ⟨why, hd⟩ := (decoderAgreesWithTheOpcodeMap s.params w).2.mpr hwf
  exact step_of_illegal hw hd

/-- Settles O11: such a word decodes to the no-op, which is carried out and then ticked. -/
theorem sysNopOnlyAdvancesPc : Obligations.SysNopOnlyAdvancesPc := by
  intro s w hw hp hlt h0 hE
  exact step_of_sysNop hw ((groupZeroWordsFollowSysMode s.params w hlt h0 hE).2 hp)

/-! ### A handler faults, or leaves the run state -/

theorem exec_run_cases (h : exec i s = .next t) : (∃ c, t = s.enterFault c) ∨ t.run = s.run :=
  (exec_frame h).imp_right fun hf => hf.run

/-- A handler that leaves a running core Faulted has written nothing but the fault. -/
theorem exec_faulted {f : FaultRecord} (hr : s.run = .running) (h : exec i s = .next t) (hf : t.run = .faulted f) :
    t = s.enterFault f.cause ∧ f = { cause := f.cause, opcode := s.opcode, pc := s.pc } := by
  obtain ⟨c, rfl⟩ | he := exec_run_cases h
  · cases hf
    exact ⟨rfl, rfl⟩
  · rw [he, hr] at hf
    cases hf

/-- A step of a running core ends Stopped by the stop test alone; else it ends Faulted or Running. -/
theorem step_not_stopped (hr : s.run = .running) (hs : stopTest s = false) (h : step s = .next t) : t.run ≠ .stopped := by
  obtain ⟨hst, -⟩ | ⟨-, c, -, rfl⟩ | ⟨w, -, ⟨why, -, rfl⟩ | ⟨-, rfl⟩ | ⟨i, u, -, hu, rfl⟩⟩ := step_cases hr h
  · rw [hs] at hst
    cases hst
  · simp
  · simp
  · simp [execSysNop, hr]
  · rw [endOfStep_run]
    obtain ⟨c, rfl⟩ | he := exec_run_cases hu
    · simp
    · simp [he, hr]

theorem stopTest_ge (hp : s.params.stopCmp = .ge) : stopTest s = decide (s.pc.toNat ≥ 0x200 + s.romLen) := by
  simp [stopTest, hp]

theorem stopTest_gt (hp : s.params.stopCmp = .gt) : stopTest s = decide (s.pc.toNat > 0x200 + s.romLen) := by
  simp [stopTest, hp]

/-- Settles O8: the stop test decides, and a step it does not stop ends Running or Faulted. -/
theorem stopTestDecidesTheStop : Obligations.StopTestDecidesTheStop := by
  intro s hr
  have hstop : stopTest s = true → step s = .next (s.setRun .stopped) := fun hs => by
    rw [step_of_running hr, runningStep_of_stop hs]
  refine ⟨fun hp h => hstop ?_, fun hp h => hstop ?_, fun hp h t => step_not_stopped hr ?_, fun hp h t => step_not_stopped hr ?_⟩
  · simpa [stopTest_ge hp] using h
  · simpa [stopTest_gt hp] using h
  · simpa [stopTest_ge hp] using h
  · simpa [stopTest_gt hp] using h

/-- Settles O12: at the fetch, at the decode and in the handler the fault is entered from the state with, or before, the word. -/
theorem faultEntryWritesOnlyRunAndOpcode : Obligations.FaultEntryWritesOnlyRunAndOpcode := by
  intro s t f hr h hf
  obtain ⟨-, rfl⟩ | ⟨-, c, hc, rfl⟩ | ⟨w, hw, ⟨why, -, rfl⟩ | ⟨-, rfl⟩ | ⟨i, u, -, hu, rfl⟩⟩ := step_cases hr h
  · cases hf
  · cases hf
    simp [hc, State.enterFault, State.setRun]
  · cases hf
    simp [hw.2.2, State.enterFault, State.setRun, State.setOpcode]
  · simp [execSysNop, hr] at hf
  · rw [endOfStep_run] at hf
    obtain ⟨rfl, hrec⟩ := exec_faulted (s := s.setOpcode w) hr hu hf
    rw [endOfStep_of_faulted hf, hrec]
    simp [hw.2.2, State.enterFault, State.setRun, State.setOpcode]

/-! ### The kinds of fault (R200) -/

theorem readOffence_kind {c : FaultCause} {len : Nat} (h : readOffence s len = some c) : c.kind = .boundsFault := by
  obtain ⟨a, -, ha⟩ := List.exists_of_findSome?_eq_some h
  unfold readCheck at ha
  split at ha <;> cases ha
  rfl

theorem writeOffence_kind {c : FaultCause} {len : Nat} (h : writeOffence s len = some c) : c.kind = .boundsFault := by
  obtain ⟨a, -, ha⟩ := List.exists_of_findSome?_eq_some h
  unfold writeCheck at ha
  split at ha
  · cases ha
    rfl
  · split at ha <;> cases ha
    rfl

theorem keyOffence_kind {c : FaultCause} {b : Byte} (h : (if b.toNat > 15 then some (FaultCause.keyIndex b) else none) = some c) :
    c.kind = .boundsFault := by
  split at h <;> cases h
  rfl

/-- A guarded handler raises the offence its check has found. -/
theorem guarded_faulted {o : Option FaultCause} {u : State} {f : FaultRecord} (h : guarded o s u = .next t) (hf : t.run = .faulted f)
    (hu : u.run = .running) : o = some f.cause := by
  obtain ⟨-, rfl⟩ | ⟨c, ho, rfl⟩ := guarded_next_cases h
  · rw [hu] at hf
    cases hf
  · cases hf
    exact ho

theorem not_faulted_of_next {u : State} {f : FaultRecord} (h : (Host.Outcome.next u : Out) = .next t) (hu : u.run = .running) :
    t.run ≠ .faulted f := by
  obtain rfl := Host.Outcome.next.inj h
  simp [hu]

theorem writeFlagAndReg_run (x y : Reg) (flag result : Byte → Byte → Byte) (s : State) :
    (writeFlagAndReg x y flag result s).run = s.run := by
  unfold writeFlagAndReg
  split <;> rfl

theorem countKeyDraw_run (s : State) : (countKeyDraw s).run = s.run := by
  unfold countKeyDraw
  split <;> rfl

theorem writeRegs_run (s : State) (k : Nat) (bs : List Byte) : (writeRegs s k bs).run = s.run := by
  obtain ⟨v, hv⟩ := writeRegs_eq s k bs
  rw [hv]

theorem flagAlu_not_faulted {x y : Reg} {flag result : Byte → Byte → Byte} {f : FaultRecord} (hr : s.run = .running)
    (h : flagAlu x y flag result s = .next t) : t.run ≠ .faulted f :=
  not_faulted_of_next h (by rw [State.advance_run, writeFlagAndReg_run, hr])

theorem execLdVxK_not_faulted {x : Reg} {f : FaultRecord} (hr : s.run = .running) (h : execLdVxK x s = .next t) :
    t.run ≠ .faulted f := by
  unfold execLdVxK at h
  split at h
  · exact not_faulted_of_next h hr
  · exact not_faulted_of_next h (by rw [State.advance_run, State.setV_run, countKeyDraw_run, hr])

/-- Settles O13: only CALL and RET raise a StackFault, and only the handlers that check a block or a key number raise a
BoundsFault. -/
theorem eachInstructionRaisesOneFaultKind : Obligations.EachInstructionRaisesOneFaultKind := by
  intro i s t f hr h hf
  cases i with
  | ret =>
    obtain rfl | ⟨hs, rfl⟩ := execRet_cases h
    · cases hf
      exact .inl ⟨rfl, .inl rfl⟩
    · exact absurd (hr.symm.trans hf) (by simp)
  | call nnn =>
    obtain rfl | ⟨hs, rfl⟩ := execCall_cases h
    · cases hf
      exact .inl ⟨rfl, .inr ⟨nnn, rfl⟩⟩
    · exact absurd (hr.symm.trans hf) (by simp)
  | drw x y n => exact .inr ⟨readOffence_kind (guarded_faulted h hf hr), by simp⟩
  | skp x => exact .inr ⟨keyOffence_kind (guarded_faulted h hf hr), by simp⟩
  | sknp x => exact .inr ⟨keyOffence_kind (guarded_faulted h hf hr), by simp⟩
  | ldBVx x => exact .inr ⟨writeOffence_kind (guarded_faulted h hf hr), by simp⟩
  | ldMemVx x => exact .inr ⟨writeOffence_kind (guarded_faulted h hf hr), by simp⟩
  | ldVxMem x =>
    have hu : (writeRegs s 0 (loadBlock s (x.toNat + 1))).advance.run = .running := by
      rw [State.advance_run, writeRegs_run, hr]
    exact .inr ⟨readOffence_kind (guarded_faulted h hf hu), by simp⟩
  | addReg | subReg | shr | subn | shl => exact absurd hf (flagAlu_not_faulted hr h)
  | ldVxK => exact absurd hf (execLdVxK_not_faulted hr h)
  | cls | jp | seImm | sneImm | seReg | ldImm | addImm | ldReg | orReg | andReg | xorReg | sneReg | ldI | jpV0 | rnd | ldVxDt |
    ldDtVx | ldStVx | addIVx | ldFVx => exact absurd hf (not_faulted_of_next h hr)

end Sys2Proof.Machine
end

section
/-! SUPPORT. What a whole step leaves unchanged (R33, R34, R36, R63, R69), and the timers through it (R211, R212, R250). -/

namespace Sys2Proof.Machine

variable {i : Instr} {s t : State} {w : Word}

/-! ### Memory, keys, the ROM length and the parameters -/

/-- Settles O27: no part of a step writes any of the four. -/
theorem stepLeavesKeysAndRomLength : Obligations.StepLeavesKeysAndRomLength := by
  intro s t h
  refine step_preserves (P := fun u => u.key = s.key ∧ u.romLen = s.romLen ∧ u.params = s.params ∧ u.mem.font = s.mem.font)
    (fun _ hu => hu) (fun _ _ hu => hu) (fun _ _ hu => hu) (fun _ hu => hu) ?_ ?_ h ⟨rfl, rfl, rfl, rfl⟩
  · intro i u v hv hu
    rwa [exec_key hv, exec_romLen hv, exec_params hv, exec_font hv]
  · intro u hu
    rwa [endOfStep_key, endOfStep_romLen, endOfStep_params, endOfStep_mem]

/-- Settles O23: every handler keeps the reserved area, and the parameters that protect it. -/
theorem reservedAreaIsNeverWritten : Obligations.ReservedAreaIsNeverWritten := by
  intro s t hp h a ha
  refine (step_preserves (P := fun u => u.params = s.params ∧ u.mem.read a = s.mem.read a)
    (fun _ hu => hu) (fun _ _ hu => hu) (fun _ _ hu => hu) (fun _ hu => hu) ?_ ?_ h ⟨rfl, rfl⟩).2
  · intro i u v hv hu
    have hpu : u.params.protectReserved = true := by rw [hu.1, hp]
    rwa [exec_params hv, exec_mem_reserved hv hpu ha]
  · intro u hu
    rwa [endOfStep_params, endOfStep_mem]

theorem storeLen_eq_zero (hb : ∀ x, i ≠ .ldBVx x) (hm : ∀ x, i ≠ .ldMemVx x) : storeLen i = 0 := by
  cases i <;> simp_all [storeLen]

/-- A handler that stores no byte leaves memory. -/
theorem exec_mem_eq (h : exec i s = .next t) (hl : storeLen i = 0) : t.mem = s.mem := by
  obtain he | ⟨bs, hbs, -, he⟩ := exec_mem_cases h
  · exact he
  · obtain rfl : bs = [] := List.eq_nil_of_length_eq_zero (hbs.trans hl)
    exact he

/-- A step that reaches a handler leaves what the handler left, with the timers written; any other leaves memory and the redraw
flag, and if it completes it has run no instruction. -/
theorem step_handler_cases (h : step s = .next t) :
    (t.mem = s.mem ∧ t.redraw = s.redraw ∧ (∀ i, t.run = .running → ¬ Runs s i)) ∨
    (s.run = .running ∧ ∃ w i u, Runs s i ∧ exec i (s.setOpcode w) = .next u ∧ t = endOfStep u) := by
  by_cases hr : s.run = .running
  · have hno : ∀ {w}, Fetches s w → (∀ i, decodeWord s.params w ≠ .instr i) → ∀ i, ¬ Runs s i := by
      rintro w hw hd i ⟨w', hw', hi⟩
      obtain rfl : w = w' := by simpa [hw.2.2] using hw'.2.2
      exact hd i hi
    obtain ⟨-, rfl⟩ | ⟨-, c, -, rfl⟩ | ⟨w, hw, ⟨why, hd, rfl⟩ | ⟨hd, rfl⟩ | ⟨i, u, hi, hu, rfl⟩⟩ := step_cases hr h
    · exact .inl ⟨rfl, rfl, fun i hrun => by cases hrun⟩
    · exact .inl ⟨rfl, rfl, fun i hrun => by cases hrun⟩
    · exact .inl ⟨rfl, rfl, fun i hrun => by cases hrun⟩
    · exact .inl ⟨endOfStep_mem _, endOfStep_redraw _, fun i _ => hno hw (by simp [hd]) i⟩
    · exact .inr ⟨hr, w, i, u, ⟨w, hw, hi⟩, hu, rfl⟩
  · rw [step_of_not_running hr] at h
    cases h
    exact .inl ⟨rfl, rfl, fun i hrun => absurd hrun hr⟩

/-- Settles O24: every other instruction stores no byte. -/
theorem onlyTheTwoStoresChangeMemory : Obligations.OnlyTheTwoStoresChangeMemory := by
  intro s t h hb hm
  obtain ⟨he, -⟩ | ⟨-, w, i, u, hi, hu, rfl⟩ := step_handler_cases h
  · exact he
  · rw [endOfStep_mem]
    exact exec_mem_eq (s := s.setOpcode w) hu (storeLen_eq_zero (fun x e => hb x (e ▸ hi)) fun x e => hm x (e ▸ hi))

/-! ### The redraw flag (R33) -/

/-- CLS and a DRW that completes set the flag. -/
theorem exec_sets_redraw (h : exec i s = .next t) (hi : i = .cls ∨ ∃ x y n, i = .drw x y n)
    (ht : t.run = .running) : t.redraw = true := by
  obtain rfl | ⟨x, y, n, rfl⟩ := hi
  · cases h
    rfl
  · obtain ⟨-, rfl⟩ | ⟨c, -, rfl⟩ := guarded_next_cases h
    · rfl
    · cases ht

/-- A handler that faults, or is neither CLS nor DRW, leaves the flag. -/
theorem exec_keeps_redraw (hr : s.run = .running) (h : exec i s = .next t)
    (hi : ¬ ((i = .cls ∨ ∃ x y n, i = .drw x y n) ∧ t.run = .running)) : t.redraw = s.redraw := by
  obtain ⟨c, rfl⟩ | hf := exec_frame h
  · rfl
  · have hrun : t.run = .running := hf.run.trans hr
    have hpart : Part.screen ∉ destParts i := by
      cases i <;> simp_all [destParts]
    exact (hf.screen hpart).2

/-- Settles O26: only a handler that completes can set the flag, and only that of CLS or DRW does. -/
theorem redrawIsSetByClsAndDrwAlone : Obligations.RedrawIsSetByClsAndDrwAlone := by
  intro s t h
  obtain ⟨-, he, hno⟩ | ⟨hr, w, i, u, hi, hu, rfl⟩ := step_handler_cases h
  · rw [he]
    refine ⟨.inl, fun hor => hor.elim id ?_⟩
    rintro ⟨hrun, hc | ⟨x, y, n, hd⟩⟩
    · exact absurd hc (hno _ hrun)
    · exact absurd hd (hno _ hrun)
  · have hruns : (Runs s .cls ∨ ∃ x y n, Runs s (.drw x y n)) ↔ (i = .cls ∨ ∃ x y n, i = .drw x y n) := by
      have hone : ∀ j, Runs s j ↔ i = j := fun j => ⟨runs_unique hi, fun e => e ▸ hi⟩
      simp only [hone]
    rw [hruns, endOfStep_redraw, endOfStep_run]
    by_cases hset : (i = .cls ∨ ∃ x y n, i = .drw x y n) ∧ u.run = .running
    · simp [exec_sets_redraw (s := s.setOpcode w) hu hset.1 hset.2, hset]
    · rw [exec_keeps_redraw (s := s.setOpcode w) hr hu hset]
      rw [and_comm] at hset
      simp [hset]

/-! ### The timers -/

theorem timerTick_dt (s : State) : (timerTick s).dt.toNat = s.dt.toNat - 1 := toNat_countDown s.dt

theorem timerTick_st (s : State) : (timerTick s).st.toNat = s.st.toNat - 1 := toNat_countDown s.st

/-- Only Fx15 writes DT. -/
theorem exec_dt (h : exec i s = .next t) (hi : ∀ x, i ≠ .ldDtVx x) : t.dt = s.dt := by
  have hpart : Part.dt ∉ destParts i := by
    cases i <;> simp_all [destParts]
  exact exec_keeps State.dt (fun _ => rfl) (fun hf => hf.delay hpart) h

/-- Only Fx18 writes ST. -/
theorem exec_st (h : exec i s = .next t) (hi : ∀ x, i ≠ .ldStVx x) : t.st = s.st := by
  have hpart : Part.st ∉ destParts i := by
    cases i <;> simp_all [destParts]
  exact exec_keeps State.st (fun _ => rfl) (fun hf => hf.sound hpart) h

theorem exec_faulted_timers (h : exec i s = .next t) (hr : s.run = .running) (ht : t.run ≠ .running) :
    t.dt = s.dt ∧ t.st = s.st := by
  obtain ⟨c, rfl⟩ | he := exec_run_cases h
  · exact ⟨rfl, rfl⟩
  · exact absurd (he.trans hr) ht

theorem endOfStep_of_not_running (h : s.run ≠ .running) : endOfStep s = s := by
  unfold endOfStep
  split <;> simp_all

/-- A step leaves the timers and ends the run, or completes: it ticks a state whose timers are those from before the step or from
its handler. -/
theorem step_timer_cases (h : step s = .next t) :
    (t.run ≠ .running ∧ t.dt = s.dt ∧ t.st = s.st) ∨
    (t.run = .running ∧ ∃ u, t = timerTick u ∧
      ((u.dt = s.dt ∧ u.st = s.st) ∨ ∃ w i, Runs s i ∧ exec i (s.setOpcode w) = .next u)) := by
  by_cases hr : s.run = .running
  · obtain ⟨-, rfl⟩ | ⟨-, c, -, rfl⟩ | ⟨w, hw, ⟨why, -, rfl⟩ | ⟨-, rfl⟩ | ⟨i, u, hi, hu, rfl⟩⟩ := step_cases hr h
    · exact .inl ⟨by simp, rfl, rfl⟩
    · exact .inl ⟨by simp, rfl, rfl⟩
    · exact .inl ⟨by simp, rfl, rfl⟩
    · have hn : (execSysNop (s.setOpcode w)).run = .running := hr
      rw [endOfStep_of_running hn]
      exact .inr ⟨hn, _, rfl, .inl ⟨rfl, rfl⟩⟩
    · by_cases hur : u.run = .running
      · rw [endOfStep_of_running hur]
        exact .inr ⟨hur, _, rfl, .inr ⟨w, i, ⟨w, hw, hi⟩, hu⟩⟩
      · rw [endOfStep_of_not_running hur]
        exact .inl ⟨hur, exec_faulted_timers (s := s.setOpcode w) hu hr hur⟩
  · rw [step_of_not_running hr] at h
    cases h
    exact .inl ⟨hr, rfl, rfl⟩

/-- Settles O14: only Fx15 and Fx18 write a timer before the tick. -/
theorem timersTickInCompletedStepsOnly : Obligations.TimersTickInCompletedStepsOnly := by
  intro s t h
  obtain ⟨ht, hkept⟩ | ⟨ht, u, rfl, hu⟩ := step_timer_cases h
  · exact ⟨fun _ => hkept, fun hrun => absurd hrun ht, fun hrun => absurd hrun ht⟩
  · refine ⟨fun hrun => absurd ht hrun, fun _ hno => ?_, fun _ hno => ?_⟩
    · have hdt : u.dt = s.dt := by
        obtain ⟨hdt, -⟩ | ⟨w, i, hi, hx⟩ := hu
        · exact hdt
        · exact exec_dt (s := s.setOpcode w) hx fun x e => hno x (e ▸ hi)
      rw [timerTick_dt, hdt]
    · have hst : u.st = s.st := by
        obtain ⟨-, hst⟩ | ⟨w, i, hi, hx⟩ := hu
        · exact hst
        · exact exec_st (s := s.setOpcode w) hx fun x e => hno x (e ▸ hi)
      rw [timerTick_st, hst]

/-- A number that every completed step but those running `skip` counts down by one is counted down by n in n of them. -/
theorem completesIn_countDown {skip : Instr → Prop} {timer : State → Nat}
    (hstep : ∀ {s t}, Completes s t → (∀ i, Runs s i → ¬ skip i) → timer t = timer s - 1) :
    ∀ (n : Nat) {s t : State}, CompletesIn skip n s t → timer t = timer s - n
  | 0, _, _, h => congrArg timer h
  | n + 1, s, t, ⟨m, hc, hno, h⟩ => by
    rw [completesIn_countDown hstep n h, hstep hc hno]
    omega

/-- Settles O15: by induction on the number of steps, each of which counts down by one. -/
theorem timersCountCompletedSteps : Obligations.TimersCountCompletedSteps := by
  intro n s t
  refine ⟨completesIn_countDown (timer := fun s => s.dt.toNat) ?_ n, completesIn_countDown (timer := fun s => s.st.toNat) ?_ n⟩
  · rintro s t ⟨-, hst, hrun⟩ hno
    exact (timersTickInCompletedStepsOnly s t hst).2.1 hrun fun x hx => hno _ hx ⟨x, rfl⟩
  · rintro s t ⟨-, hst, hrun⟩ hno
    exact (timersTickInCompletedStepsOnly s t hst).2.2 hrun fun x hx => hno _ hx ⟨x, rfl⟩

/-- A handler that completes is followed by the tick. -/
theorem completes_of_exec {u : State} (hw : Fetches s w) (hd : decodeWord s.params w = .instr i)
    (h : exec i (s.setOpcode w) = .next u) (hu : u.run = .running) : Completes s (timerTick u) := by
  refine ⟨hw.1, ?_, hu⟩
  rw [step_of_instr hw hd, h, finishStep, endOfStep_of_running hu]

theorem exec_ldDtVx (x : Reg) (s : State) : exec (.ldDtVx x) s = .next (s.setDt (s.getV x)).advance := rfl

theorem exec_ldStVx (x : Reg) (s : State) : exec (.ldStVx x) s = .next (s.setSt (s.getV x)).advance := rfl

/-- Settles O16: the handler writes the timer, and the tick of the same step follows. -/
theorem timerWriteIsTickedInTheSameStep : Obligations.TimerWriteIsTickedInTheSameStep := by
  intro s x
  constructor
  · rintro ⟨w, hw, hd⟩
    exact ⟨_, completes_of_exec hw hd (exec_ldDtVx x _) hw.1, timerTick_dt _, timerTick_st _, rfl⟩
  · rintro ⟨w, hw, hd⟩
    exact ⟨_, completes_of_exec hw hd (exec_ldStVx x _) hw.1, timerTick_st _, timerTick_dt _, rfl⟩

/-! ### The stall of the key wait (R181, R221) -/

theorem pressedKeys_eq_nil_iff : s.pressedKeys = [] ↔ ∀ k, k < 16 → s.keyDown k = false := by
  simp [State.pressedKeys, List.filter_eq_nil_iff]

theorem exec_ldVxK_stall (x : Reg) (h : ∀ k, k < 16 → s.keyDown k = false) : exec (.ldVxK x) s = .next s := by
  simp only [exec, execLdVxK, pressedKeys_eq_nil_iff.mpr h]

/-- Settles O17: the handler of the stall leaves the state, and the tick follows. -/
theorem keyWaitStallChangesOnlyTimers : Obligations.KeyWaitStallChangesOnlyTimers := by
  intro s w x hw hd hk
  exact (completes_of_exec hw hd (exec_ldVxK_stall (s := s.setOpcode w) x hk) hw.1).2.1

end Sys2Proof.Machine
end

section
/-! SUPPORT. What a handler may write beside its destinations, and what it cannot read (R40, R45, R255). -/

namespace Sys2Proof.Machine

variable {i : Instr} {s t : State}

/-! ### The frame, byte by byte, slot by slot and pixel by pixel -/

/-- CALL writes the slot at SP alone, and no other handler writes a slot (R28). -/
theorem exec_stack_slot (h : exec i s = .next t) {j : Nat} (hj : j < 16) (hne : ∀ nnn, i = .call nnn → j ≠ s.sp.toNat) :
    t.stack[j] = s.stack[j] := by
  by_cases hc : ∃ nnn, i = .call nnn
  · obtain ⟨nnn, rfl⟩ := hc
    obtain rfl | ⟨hs, rfl⟩ := execCall_cases h
    · rfl
    · have hslot := (hne nnn rfl).symm
      simp [Vector.getElem_set_ne _ _ hslot]
  · by_cases hr : i = .ret
    · subst hr
      obtain rfl | ⟨hs, rfl⟩ := execRet_cases h <;> rfl
    · have he := (exec_stack h (fun nnn e => hc ⟨nnn, e⟩) hr).2
      simp [he]

theorem exec_drw_uncovered {x y : Reg} {n : Nibble} (h : exec (.drw x y n) s = .next t) {r : Fin 32} {c : Fin 64}
    (hc : ¬ SpriteCovers s x y n r c) : pixel t.disp r c = pixel s.disp r c := by
  obtain ⟨-, rfl⟩ | ⟨e, -, rfl⟩ := guarded_next_cases h
  · exact (drawSprite_spec x y n s).2.1 r c hc
  · rfl

/-- Settles O25: the frame of the dispatch, and in the parts it leaves open the one block, slot or sprite. -/
theorem everyHandlerKeepsItsFrame : Obligations.EveryHandlerKeepsItsFrame := by
  intro i s t h
  refine (exec_frame h).imp_right fun hf => ⟨hf, fun a ha => exec_mem_read h ha, fun j hj hne => exec_stack_slot h hj hne, ?_⟩
  rintro x y n rfl r c hc
  exact exec_drw_uncovered h hc

/-! ### RET, CALL and the key wait, case by case -/

theorem execRet_of_zero (h0 : s.sp = 0#8) : execRet s = .next (s.enterFault (.stackUnderflow s.sp)) := by
  simp [execRet, h0, raise]

theorem execRet_of_pop (h0 : s.sp ≠ 0#8) (h : (s.sp - 1).toNat < 16) : execRet s = .next (s.popPc h) := by
  rw [execRet, if_neg h0, dif_pos h]

theorem execRet_of_above (h0 : s.sp ≠ 0#8) (h : ¬ (s.sp - 1).toNat < 16) : execRet s = .fault (.stackPointer s.sp) := by
  rw [execRet, if_neg h0, dif_neg h]

theorem execCall_of_full (nnn : Addr) (h0 : s.sp = 16#8) : execCall nnn s = .next (s.enterFault (.stackOverflow s.sp)) := by
  simp [execCall, h0, raise]

theorem execCall_of_push (nnn : Addr) (h0 : s.sp ≠ 16#8) (h : s.sp.toNat < 16) :
    execCall nnn s = .next ((s.push (s.pc + 2) h).setPc (addrWord nnn)) := by
  rw [execCall, if_neg h0, dif_pos h]

theorem execCall_of_above (nnn : Addr) (h0 : s.sp ≠ 16#8) (h : ¬ s.sp.toNat < 16) :
    execCall nnn s = .fault (.stackPointer s.sp) := by
  rw [execCall, if_neg h0, dif_neg h]

theorem execLdVxK_of_none (h : s.pressedKeys = []) (x : Reg) : execLdVxK x s = .next s := by
  simp [execLdVxK, h]

theorem execLdVxK_of_pressed {k : Nat} {ks : List Nat} (h : s.pressedKeys = k :: ks) (x : Reg) :
    execLdVxK x s = writeReg x (BitVec.ofNat 8 (chooseKey s k ks)) (countKeyDraw s) := by
  simp [execLdVxK, h]

theorem chooseKey_lowest (h : s.params.keySelect = .lowest) (k : Nat) (ks : List Nat) : chooseKey s k ks = k := by
  simp [chooseKey, h]

theorem countKeyDraw_lowest (h : s.params.keySelect = .lowest) : countKeyDraw s = s := by
  simp [countKeyDraw, h]

theorem countKeyDraw_any (h : s.params.keySelect = .any) : countKeyDraw s = s.countDraw := by
  simp [countKeyDraw, h]

/-- States with one SP take the same branch of RET. -/
theorem execRet_rel {R : Out → Out → Prop} {s s' : State} (hsp : s'.sp = s.sp)
    (hfault : ∀ c, R (.next (s'.enterFault c)) (.next (s.enterFault c)))
    (hpop : ∀ h' h, R (.next (s'.popPc h')) (.next (s.popPc h))) (hstop : ∀ r, R (.fault r) (.fault r)) :
    R (execRet s') (execRet s) := by
  by_cases h0 : s.sp = 0#8
  · rw [execRet_of_zero h0, execRet_of_zero (hsp.trans h0), hsp]
    exact hfault _
  · have h0' : s'.sp ≠ 0#8 := hsp ▸ h0
    by_cases hlt : (s.sp - 1).toNat < 16
    · rw [execRet_of_pop h0 hlt, execRet_of_pop h0' (hsp.symm ▸ hlt)]
      exact hpop _ _
    · rw [execRet_of_above h0 hlt, execRet_of_above h0' (hsp.symm ▸ hlt), hsp]
      exact hstop _

/-- States with one SP take the same branch of CALL. -/
theorem execCall_rel {nnn : Addr} {R : Out → Out → Prop} {s s' : State} (hsp : s'.sp = s.sp)
    (hfault : ∀ c, R (.next (s'.enterFault c)) (.next (s.enterFault c)))
    (hpush : ∀ h' h, R (.next ((s'.push (s'.pc + 2) h').setPc (addrWord nnn))) (.next ((s.push (s.pc + 2) h).setPc (addrWord nnn))))
    (hstop : ∀ r, R (.fault r) (.fault r)) : R (execCall nnn s') (execCall nnn s) := by
  by_cases h0 : s.sp = 16#8
  · rw [execCall_of_full nnn h0, execCall_of_full nnn (hsp.trans h0), hsp]
    exact hfault _
  · have h0' : s'.sp ≠ 16#8 := hsp ▸ h0
    by_cases hlt : s.sp.toNat < 16
    · rw [execCall_of_push nnn h0 hlt, execCall_of_push nnn h0' (hsp.symm ▸ hlt)]
      exact hpush _ _
    · rw [execCall_of_above nnn h0 hlt, execCall_of_above nnn h0' (hsp.symm ▸ hlt), hsp]
      exact hstop _

/-! ### The loads of registers depend on the registers alone -/

theorem writeRegs_v_congr {s s' : State} (h : s.v = s'.v) : ∀ (k : Nat) (bs : List Byte),
    (writeRegs s k bs).v = (writeRegs s' k bs).v
  | _, [] => h
  | k, b :: bs => writeRegs_v_congr (s := s.setV _ b) (s' := s'.setV _ b) (by simp [h]) (k + 1) bs

theorem writeRegs_eq_v (s : State) (k : Nat) (bs : List Byte) : writeRegs s k bs = { s with v := (writeRegs s k bs).v } := by
  obtain ⟨v, hv⟩ := writeRegs_eq s k bs
  rw [hv]

/-! ### What a program cannot see (R45) -/

/-- Values for what no program can read, or but by DRW. -/
structure Hidden where
  st     : Byte
  redraw : Bool
  opcode : Word
  romLen : Nat
  disp   : Display

/-- The state with other values in what no program can read. -/
def State.withHidden (s : State) (h : Hidden) : State :=
  { s with st := h.st, redraw := h.redraw, opcode := h.opcode, romLen := h.romLen, disp := h.disp }

section
variable (s) (hid : Hidden)

theorem programView_guarded_hidden {o : Option FaultCause} {u u' : State} (hu : programView (.next u) = programView (.next u')) :
    programView (guarded o (s.withHidden hid) u) = programView (guarded o s u') := by
  cases o
  · exact hu
  · rfl

theorem programView_flagAlu_hidden (x y : Reg) (flag result : Byte → Byte → Byte) :
    programView (flagAlu x y flag result (s.withHidden hid)) = programView (flagAlu x y flag result s) := by
  have hp : (s.withHidden hid).params = s.params := rfl
  unfold flagAlu writeFlagAndReg
  rw [hp]
  cases s.params.aluVfRead <;> rfl

theorem programView_execLdVxK_hidden (x : Reg) :
    programView (execLdVxK x (s.withHidden hid)) = programView (execLdVxK x s) := by
  cases hk : s.pressedKeys with
  | nil =>
    rw [execLdVxK_of_none hk, execLdVxK_of_none (s := s.withHidden hid) hk]
    rfl
  | cons k ks =>
    rw [execLdVxK_of_pressed hk, execLdVxK_of_pressed (s := s.withHidden hid) hk]
    unfold countKeyDraw chooseKey
    rw [show (s.withHidden hid).params = s.params from rfl]
    cases s.params.keySelect <;> rfl

theorem programView_execRet_hidden : programView (execRet (s.withHidden hid)) = programView (execRet s) :=
  execRet_rel (R := fun a b => programView a = programView b) rfl (fun _ => rfl) (fun _ _ => rfl) fun _ => rfl

theorem programView_execCall_hidden (nnn : Addr) : programView (execCall nnn (s.withHidden hid)) = programView (execCall nnn s) :=
  execCall_rel (R := fun a b => programView a = programView b) rfl (fun _ => rfl) (fun _ _ => rfl) fun _ => rfl

theorem programView_execLdVxMem_hidden (x : Reg) :
    programView (execLdVxMem x (s.withHidden hid)) = programView (execLdVxMem x s) := by
  refine programView_guarded_hidden s hid ?_
  rw [writeRegs_eq_v s, writeRegs_eq_v (s.withHidden hid)]
  have hv := writeRegs_v_congr (s := s.withHidden hid) (s' := s) rfl 0 (loadBlock s (x.toNat + 1))
  change some (_, _) = some (_, _)
  exact congrArg (fun v => some (v, _)) hv

/-- No handler but DRW shows the display, and none the rest, in what a program sees. -/
theorem programView_exec_hidden (hd : (∃ x y n, i = .drw x y n) → hid.disp = s.disp) :
    programView (exec i (s.withHidden hid)) = programView (exec i s) := by
  cases i with
  | ret => exact programView_execRet_hidden ..
  | call => exact programView_execCall_hidden ..
  | addReg | subReg | shr | subn | shl => exact programView_flagAlu_hidden ..
  | ldVxK => exact programView_execLdVxK_hidden ..
  | ldVxMem => exact programView_execLdVxMem_hidden ..
  | drw x y n =>
    refine programView_guarded_hidden s hid ?_
    have hdraw : drawSprite x y n (s.withHidden hid) = drawSprite x y n s := by
      unfold drawSprite
      rw [show (s.withHidden hid).disp = s.disp from hd ⟨x, y, n, rfl⟩]
      rfl
    unfold drawEffect
    rw [hdraw]
    rfl
  | skp | sknp | ldBVx | ldMemVx => exact programView_guarded_hidden s hid rfl
  | cls | jp | seImm | sneImm | seReg | ldImm | addImm | ldReg | orReg | andReg | xorReg | sneReg | ldI | jpV0 | rnd | ldVxDt |
    ldDtVx | ldStVx | addIVx | ldFVx => rfl

end

/-- Settles O28: both changes are of hidden values, the second of the display alone. -/
theorem hiddenStateIsNotReadByPrograms : Obligations.HiddenStateIsNotReadByPrograms := by
  intro i s st redraw opcode romLen
  refine ⟨programView_exec_hidden s ⟨st, redraw, opcode, romLen, s.disp⟩ fun _ => rfl, fun hi d => ?_⟩
  exact programView_exec_hidden s ⟨s.st, s.redraw, s.opcode, s.romLen, d⟩ fun ⟨x, y, n, e⟩ => absurd e (hi x y n)

/-! ### The free values (R255) -/

/-- The state with another counter of draws. -/
def State.withDraws (s : State) (d : Nat) : State := { s with draws := d }

/-- An outcome with another counter of draws. -/
def outWithDraws (d : Nat) : Out → Out
  | .next t => .next (t.withDraws d)
  | .fault r => .fault r
  | .refused r => .refused r

section
variable (s) (d : Nat)

theorem guarded_withDraws {o : Option FaultCause} {u u' : State} (hu : u = u'.withDraws d) :
    guarded o (s.withDraws d) u = outWithDraws d (guarded o s u') := by
  cases o
  · exact congrArg Host.Outcome.next hu
  · rfl

theorem flagAlu_withDraws (x y : Reg) (flag result : Byte → Byte → Byte) :
    flagAlu x y flag result (s.withDraws d) = outWithDraws d (flagAlu x y flag result s) := by
  have hp : (s.withDraws d).params = s.params := rfl
  unfold flagAlu writeFlagAndReg
  rw [hp]
  cases s.params.aluVfRead <;> rfl

theorem execRet_withDraws : execRet (s.withDraws d) = outWithDraws d (execRet s) :=
  execRet_rel (R := fun a b => a = outWithDraws d b) rfl (fun _ => rfl) (fun _ _ => rfl) fun _ => rfl

theorem execCall_withDraws (nnn : Addr) : execCall nnn (s.withDraws d) = outWithDraws d (execCall nnn s) :=
  execCall_rel (R := fun a b => a = outWithDraws d b) rfl (fun _ => rfl) (fun _ _ => rfl) fun _ => rfl

/-- With KEY_SELECT = lowest the key wait makes no choice (R181). -/
theorem execLdVxK_withDraws (hs : s.params.keySelect = .lowest) (x : Reg) :
    execLdVxK x (s.withDraws d) = outWithDraws d (execLdVxK x s) := by
  cases hk : s.pressedKeys with
  | nil =>
    rw [execLdVxK_of_none hk, execLdVxK_of_none (s := s.withDraws d) hk]
    rfl
  | cons k ks =>
    rw [execLdVxK_of_pressed hk, execLdVxK_of_pressed (s := s.withDraws d) hk, chooseKey_lowest hs, countKeyDraw_lowest hs,
      chooseKey_lowest (s := s.withDraws d) hs, countKeyDraw_lowest (s := s.withDraws d) hs]
    rfl

theorem execLdVxMem_withDraws (x : Reg) : execLdVxMem x (s.withDraws d) = outWithDraws d (execLdVxMem x s) := by
  refine guarded_withDraws s d ?_
  rw [writeRegs_eq_v s, writeRegs_eq_v (s.withDraws d),
    writeRegs_v_congr (s := s.withDraws d) (s' := s) rfl 0 (loadBlock (s.withDraws d) (x.toNat + 1))]
  rfl

theorem exec_withDraws (hr : ∀ x kk, i ≠ .rnd x kk) (hk : ∀ x, i = .ldVxK x → s.params.keySelect = .lowest) :
    exec i (s.withDraws d) = outWithDraws d (exec i s) := by
  cases i with
  | rnd x kk => exact absurd rfl (hr x kk)
  | ret => exact execRet_withDraws ..
  | call => exact execCall_withDraws ..
  | addReg | subReg | shr | subn | shl => exact flagAlu_withDraws ..
  | ldVxK x => exact execLdVxK_withDraws s d (hk x rfl) x
  | ldVxMem => exact execLdVxMem_withDraws ..
  | drw | skp | sknp | ldBVx | ldMemVx => exact guarded_withDraws s d rfl
  | cls | jp | seImm | sneImm | seReg | ldImm | addImm | ldReg | orReg | andReg | xorReg | sneReg | ldI | jpV0 | ldVxDt | ldDtVx |
    ldStVx | addIVx | ldFVx => rfl

end

/-- Settles O29: every other handler carries the counter of draws through. -/
theorem freeValuesReachOnlyTheirInstructions : Obligations.FreeValuesReachOnlyTheirInstructions := by
  intro i s t d hr hk h
  have hd := exec_withDraws s d hr hk
  rw [h] at hd
  exact hd

end Sys2Proof.Machine
end

section
/-! SUPPORT. Groups 0, 1, 2 and B: the display cleared, the call stack and the jumps (R110 to R113, R151, R202). -/

namespace Sys2Proof.Machine

variable {i : Instr} {s t : State}

/-! ### Words -/

theorem decodeWord_of_encode {w : Word} (p : Params) (h : encode i = w) : decodeWord p w = .instr i := by
  rw [← h]
  exact decodeWord_encode p i

/-- A number whose word is the instruction's encoding stands for the instruction. -/
theorem encodedAs_of_encode {w : Nat} (h : encode i = BitVec.ofNat 16 w) : EncodedAs i w :=
  fun p => decodeWord_of_encode p h

/-- The words of format XY (R83), written as their numbers are in the opcode map. -/
theorem encodedAs_formatXY {g f b : Nat} {x y : Reg} (h : encode i = formatXY g x y f) (hb : b = g * 0x1000 + f) :
    EncodedAs i (b + x.toNat * 0x100 + y.toNat * 0x10) := by
  refine encodedAs_of_encode (h.trans (congrArg (BitVec.ofNat 16) ?_))
  omega

/-- The words of format X (R83), written as their numbers are in the opcode map. -/
theorem encodedAs_formatX {g f b : Nat} {x : Reg} (h : encode i = formatX g x f) (hb : b = g * 0x1000 + f) :
    EncodedAs i (b + x.toNat * 0x100) := by
  refine encodedAs_of_encode (h.trans (congrArg (BitVec.ofNat 16) ?_))
  omega

/-- Settles O1: each word is the encoding of its instruction. -/
theorem opcodeWordsDecode : Obligations.OpcodeWordsDecode := by
  intro p
  and_intros <;> exact decodeWord_of_encode p rfl

/-! ### CLS -/

theorem exec_cls (s : State) : exec .cls s = .next ((s.setDisp blankDisplay).setRedraw true).advance := rfl

/-- Settles O30: the handler writes a blank display and the flag. -/
theorem clsClearsTheDisplay : Obligations.ClsClearsTheDisplay := by
  refine ⟨encodedAs_of_encode rfl, fun s => ⟨_, exec_cls s, pixel_blankDisplay, rfl, rfl, ?_⟩⟩
  exact ((unchanged_setDisp (by simp) _ _ _).trans (unchanged_setRedraw (by simp) _ _ _)).trans (unchanged_advance _ _ _)

/-! ### The call stack -/

/-- Settles O31: SP - 1 is the slot of the last entry. -/
theorem retPopsTheReturnAddress : Obligations.RetPopsTheReturnAddress := by
  refine ⟨encodedAs_of_encode rfl, fun s => ⟨fun j hj hs => ?_, fun hs => ?_⟩⟩
  · have h0 : s.sp ≠ 0#8 := by
      intro e
      simp [e] at hs
    have hsub : (s.sp - 1).toNat = j := by
      rw [toNat_sub_one h0, hs]
      rfl
    refine ⟨_, execRet_of_pop h0 (by omega), ?_, hsub, rfl, unchanged_popPc (by simp) _ _ _⟩
    simp only [State.popPc_pc, hsub]
  · have h0 : s.sp = 0#8 := BitVec.eq_of_toNat_eq hs
    have hret := execRet_of_zero h0
    rw [h0] at hret
    exact hret

/-- Settles O32: SP is the slot after the last entry. -/
theorem callPushesTheReturnAddress : Obligations.CallPushesTheReturnAddress := by
  intro nnn s
  refine ⟨encodedAs_of_encode rfl, fun j hj hs => ?_, fun hs => ?_⟩
  · have hne : s.sp ≠ 16#8 := by
      intro e
      simp [e] at hs
      omega
    refine ⟨_, execCall_of_push nnn hne (by omega), toNat_addrWord nnn, ?_, ?_, fun l hl hlj => ?_, ?_⟩
    · rw [State.setPc_sp, State.push_sp, BitVec.toNat_add, show (1 : Byte).toNat = 1 from rfl]
      omega
    · simp [hs]
    · simp [Vector.getElem_set_ne _ _ (hs ▸ hlj.symm)]
    · exact (unchanged_push (by simp) _ _ _ _).trans (unchanged_setPc _ _ _ _)
  · have h16 : s.sp = 16#8 := BitVec.eq_of_toNat_eq hs
    have hcall := execCall_of_full nnn h16
    rw [h16] at hcall
    exact hcall

/-- Settles O33: neither SP nor SP - 1 is a slot. -/
theorem stackPointerAboveSixteenStops : Obligations.StackPointerAboveSixteenStops := by
  intro nnn s hs
  have h16 : s.sp ≠ 16#8 := by
    intro e
    simp [e] at hs
  have h0 : s.sp ≠ 0#8 := by
    intro e
    simp [e] at hs
  refine ⟨execCall_of_above nnn h16 (by omega), execRet_of_above h0 ?_⟩
  rw [toNat_sub_one h0]
  omega

/-- Settles O34: CALL has left PC + 2 in the slot below the new SP, and RET takes it from there. -/
theorem retAfterCallReturns : Obligations.RetAfterCallReturns := by
  intro nnn s t u hs h hsp hst
  have hne : s.sp ≠ 16#8 := by
    intro e
    simp [e] at hs
  obtain rfl := Host.Outcome.next.inj ((execCall_of_push nnn hne hs).symm.trans h)
  have hback : u.sp - 1 = s.sp := by
    rw [hsp, State.setPc_sp, State.push_sp]
    exact BitVec.add_sub_cancel _ _
  have h0 : u.sp ≠ 0#8 := by
    intro e
    rw [e] at hback
    rw [← hback] at hs
    exact absurd hs (by decide)
  refine ⟨_, execRet_of_pop h0 (by rw [hback]; exact hs), ?_, hback⟩
  simp only [State.popPc_pc, hback, hst]
  simp

/-! ### The jump over V0 -/

theorem exec_jpV0 (nnn : Addr) (s : State) :
    exec (.jpV0 nnn) s = .next (s.setPc (BitVec.ofNat 16 (wrapAddr s.params (nnn.toNat + (s.getV 0#4).toNat)))) := rfl

/-- Settles O36: the sum fits in 16 bits. -/
theorem jumpPlusV0 : Obligations.JumpPlusV0 := by
  intro nnn s
  have hle := jpV0_sum_le s.params nnn (s.getV 0#4)
  refine ⟨encodedAs_of_encode rfl, _, exec_jpV0 nnn s, unchanged_setPc _ _ _ _, fun hp => ?_, fun hp => ?_⟩
  · simp only [wrapAddr, hp, State.setPc_pc, BitVec.toNat_ofNat] at hle ⊢
    omega
  · simp only [wrapAddr, hp, State.setPc_pc, BitVec.toNat_ofNat]
    omega

end Sys2Proof.Machine
end

section
/-! SUPPORT. The skips on registers and on keys (R122 to R124, R170 to R172). -/

namespace Sys2Proof.Machine

variable {s : State}

theorem exec_seReg (x y : Reg) (s : State) : exec (.seReg x y) s = .next (s.skipIf (s.getV x == s.getV y)) := rfl

theorem exec_sneReg (x y : Reg) (s : State) : exec (.sneReg x y) s = .next (s.skipIf (s.getV x != s.getV y)) := rfl

/-- The words 5xyN and 9xyN: the decoder's test of n (R89). -/
theorem decodeWord_formatXY_5 (p : Params) (x y : Reg) (n : Nibble) : decodeWord p (formatXY 0x5 x y n.toNat) =
    if p.loose59 || n == 0 then .instr (.seReg x y) else .illegal .group5 := by
  have hn : n.toNat < 16 := n.isLt
  simp [decodeWord, decodeZeroNibble, fieldG_formatXY, fieldX_formatXY, fieldY_formatXY, fieldN_formatXY, hn]

theorem decodeWord_formatXY_9 (p : Params) (x y : Reg) (n : Nibble) : decodeWord p (formatXY 0x9 x y n.toNat) =
    if p.loose59 || n == 0 then .instr (.sneReg x y) else .illegal .group9 := by
  have hn : n.toNat < 16 := n.isLt
  simp [decodeWord, decodeZeroNibble, fieldG_formatXY, fieldX_formatXY, fieldY_formatXY, fieldN_formatXY, hn]

/-- Settles O38: the decoder's test of n decides the words, and the handlers skip on equal, or unequal, values. -/
theorem registerSkips : Obligations.RegisterSkips := by
  intro x y s
  refine ⟨fun p n h => ?_, fun p n hp hn => ?_, ?_, ?_⟩
  · have hc : (p.loose59 || n == 0) = true := by simpa using h
    exact ⟨(decodeWord_formatXY_5 p x y n).trans (if_pos hc), (decodeWord_formatXY_9 p x y n).trans (if_pos hc)⟩
  · have hc : ¬ (p.loose59 || n == 0) = true := by simpa [hp] using hn
    exact ⟨(decodeWord_formatXY_5 p x y n).trans (if_neg hc), (decodeWord_formatXY_9 p x y n).trans (if_neg hc)⟩
  · exact ⟨_, exec_seReg x y s, skipIf_pc_of_iff s (byte_beq_iff_toNat_eq _ _), unchanged_skipIf _ _ s _⟩
  · exact ⟨_, exec_sneReg x y s, skipIf_pc_of_iff s (byte_bne_iff_toNat_ne _ _), unchanged_skipIf _ _ s _⟩

theorem keyDown_of_lt {k : Nat} (h : k < 16) : s.keyDown k = s.key[k] := by
  simp [State.keyDown, h]

/-- A key skip on a key there is (R170, R171). -/
theorem skipOnKey_of_le {x : Reg} (h : (s.getV x).toNat ≤ 15) (b : Bool) :
    skipOnKey x b s = .next (s.skipIf (s.keyDown (s.getV x).toNat == b)) := by
  simp [skipOnKey, Nat.not_lt.mpr h, guarded]

/-- A key skip on a key number above 15 (R172). -/
theorem skipOnKey_of_gt {x : Reg} (h : 15 < (s.getV x).toNat) (b : Bool) :
    skipOnKey x b s = .next (s.enterFault (.keyIndex (s.getV x))) := by
  simp [skipOnKey, h, guarded, raise]

theorem skipOnKey_spec {x : Reg} {k : Nat} (hk : k < 16) (hx : (s.getV x).toNat = k) (b : Bool) :
    ∃ t, skipOnKey x b s = .next t ∧ t.pc = (if s.key[k] = b then s.pc + 4 else s.pc + 2) ∧ UnchangedBut [] [] s t := by
  refine ⟨_, skipOnKey_of_le (by omega) b, skipIf_pc_of_iff s ?_, unchanged_skipIf _ _ s _⟩
  rw [beq_iff_eq, hx, keyDown_of_lt hk]

/-- Settles O39: the key number is tested before anything is written. -/
theorem keySkips : Obligations.KeySkips := by
  intro x s
  refine ⟨encodedAs_formatX rfl rfl, encodedAs_formatX rfl rfl, fun k hk hx => ?_, fun h => ?_⟩
  · exact ⟨skipOnKey_spec hk hx true, skipOnKey_spec hk hx false⟩
  · exact ⟨skipOnKey_of_gt h true, skipOnKey_of_gt h false⟩

end Sys2Proof.Machine
end

section
/-! SUPPORT. Groups 6, 7 and 8 and RND (R130 to R142, R152). -/

namespace Sys2Proof.Machine

/-- A handler that writes Vx and goes on. -/
theorem writeReg_spec (x : Reg) (b : Byte) (s : State) :
    ∃ t, writeReg x b s = .next t ∧ t.getV x = b ∧ t.pc = s.pc + 2 ∧ UnchangedBut [x] [] s t :=
  ⟨_, rfl, s.getV_setV_self x b, rfl, unchanged_setV_advance x b s⟩

/-- Settles O40: addition of bytes is mod 256, and Vx alone is written. -/
theorem immediateAddHasNoFlag : Obligations.ImmediateAddHasNoFlag := by
  intro x kk s
  obtain ⟨t, ht, hx, hpc, hf⟩ := writeReg_spec x (s.getV x + kk) s
  exact ⟨encodedAs_of_encode rfl, t, ht, by rw [hx, BitVec.toNat_add], hpc, hf⟩

/-- A result written to Vx bit by bit. -/
theorem writeReg_bits (x : Reg) {b : Byte} {bits : Nat → Bool} (hb : ∀ k, b.getLsbD k = bits k) (s : State) :
    ∃ t, writeReg x b s = .next t ∧ (∀ k, (t.getV x).getLsbD k = bits k) ∧ t.pc = s.pc + 2 ∧ UnchangedBut [x] [] s t := by
  obtain ⟨t, ht, hx, hpc, hf⟩ := writeReg_spec x b s
  exact ⟨t, ht, fun k => by rw [hx, hb], hpc, hf⟩

/-- Settles O41: the operations on bytes are bit by bit, and Vx alone is written. -/
theorem registerCopyAndLogic : Obligations.RegisterCopyAndLogic := by
  intro x y s
  exact ⟨encodedAs_formatXY rfl rfl, encodedAs_formatXY rfl rfl, encodedAs_formatXY rfl rfl, encodedAs_formatXY rfl rfl,
    writeReg_spec x (s.getV y) s, writeReg_bits x (fun _ => BitVec.getLsbD_or) s, writeReg_bits x (fun _ => BitVec.getLsbD_and) s,
    writeReg_bits x (fun _ => BitVec.getLsbD_xor) s⟩

/-! ### The flag instructions (R132) -/

/-- R132 in numbers, for a flag F of the operands at the start and a result R of the operands as ALU_VF_READ has them read. -/
theorem flagAlu_spec (x y : Reg) {flag result : Byte → Byte → Byte} {s : State} {F : Nat} {R : Nat → Nat → Nat}
    (hflag : (flag (s.getV x) (s.getV y)).toNat = F) (hres : ∀ a b, (result a b).toNat = R a.toNat b.toNat) :
    ∃ t, flagAlu x y flag result s = .next t ∧ t.pc = s.pc + 2 ∧ UnchangedBut [x, vf] [] s t ∧
      ∀ f : Nat, f = F →
        (x ≠ vf → (t.getV vf).toNat = f) ∧
        (s.params.aluVfRead = .snapshot → (t.getV x).toNat = R (s.getV x).toNat (s.getV y).toNat) ∧
        (s.params.aluVfRead = .reread →
          (t.getV x).toNat = R (if x = vf then f else (s.getV x).toNat) (if y = vf then f else (s.getV y).toNat)) := by
  refine ⟨_, rfl, ?_, ?_, ?_⟩
  · rw [State.advance_pc, writeFlagAndReg_pc]
  · exact (unchanged_writeFlagAndReg (by simp) (by simp) [] y flag result s).trans (unchanged_advance _ _ _)
  · rintro f rfl
    simp only [State.advance_getV]
    refine ⟨fun hx => ?_, fun hp => ?_, fun hp => ?_⟩
    · rw [writeFlagAndReg_getV_vf hx, hflag]
    · rw [writeFlagAndReg_getV_snapshot hp, hres]
    · rw [writeFlagAndReg_getV_reread hp, hres, apply_ite BitVec.toNat, apply_ite BitVec.toNat, hflag]

theorem toNat_byte_add (a b : Byte) : (a + b).toNat = (a.toNat + b.toNat) % 256 := BitVec.toNat_add a b

theorem toNat_byte_sub (a b : Byte) : (a - b).toNat = (a.toNat + 256 - b.toNat) % 256 := by
  have hb := b.isLt
  rw [BitVec.toNat_sub]
  omega

/-- Settles O42: R132 for the carry and the sum mod 256. -/
theorem addWithCarry : Obligations.AddWithCarry := by
  intro x y s
  exact ⟨encodedAs_formatXY rfl rfl, flagAlu_spec x y (R := fun a b => (a + b) % 256) (toNat_flagOf _) toNat_byte_add⟩

/-- Settles O43: R132 for the no-borrow and the two differences mod 256. -/
theorem subtractWithNoBorrow : Obligations.SubtractWithNoBorrow := by
  intro x y s
  refine ⟨encodedAs_formatXY rfl rfl, encodedAs_formatXY rfl rfl, ?_, ?_⟩
  · exact flagAlu_spec x y (R := fun a b => (a + 256 - b) % 256) (toNat_flagOf _) toNat_byte_sub
  · exact flagAlu_spec x y (R := fun a b => (b + 256 - a) % 256) (toNat_flagOf _) fun a b => toNat_byte_sub b a

theorem toNat_lowBitFlag (a : Byte) : (lowBitFlag a).toNat = a.toNat % 2 := by
  rw [lowBitFlag, toNat_flagOf]
  split <;> omega

theorem toNat_highBitFlag (a : Byte) : (highBitFlag a).toNat = a.toNat / 128 := by
  have ha := a.isLt
  rw [highBitFlag, toNat_flagOf]
  split <;> omega

theorem toNat_shr_one (a : Byte) : (a >>> 1).toNat = a.toNat / 2 := by
  rw [BitVec.toNat_ushiftRight, Nat.shiftRight_eq_div_pow, Nat.pow_one]

theorem toNat_shl_one (a : Byte) : (a <<< 1).toNat = a.toNat * 2 % 256 := by
  rw [BitVec.toNat_shiftLeft, Nat.shiftLeft_eq, Nat.pow_one]

/-- A shift (R139, R141): Vx alone is read, so ALU_VF_READ makes a difference for VF alone. -/
theorem flagAlu_shift_spec (x y : Reg) {flag result : Byte → Byte} {s : State} {F : Nat} {R : Nat → Nat}
    (hflag : (flag (s.getV x)).toNat = F) (hres : ∀ a, (result a).toNat = R a.toNat) :
    ∃ t, flagAlu x y (fun a _ => flag a) (fun a _ => result a) s = .next t ∧ t.pc = s.pc + 2 ∧ UnchangedBut [x, vf] [] s t ∧
      (x ≠ vf → (t.getV vf).toNat = F) ∧
      (s.params.aluVfRead = .snapshot ∨ x ≠ vf → (t.getV x).toNat = R (s.getV x).toNat) ∧
      (s.params.aluVfRead = .reread → x = vf → (t.getV x).toNat = R F) := by
  obtain ⟨t, ht, hpc, hf, hall⟩ := flagAlu_spec x y (flag := fun a _ => flag a) (result := fun a _ => result a) (s := s)
    (R := fun a _ => R a) hflag fun a _ => hres a
  obtain ⟨hvf, hsnap, hre⟩ := hall F rfl
  refine ⟨t, ht, hpc, hf, hvf, fun h => ?_, fun hp hx => by rw [hre hp, if_pos hx]⟩
  cases hp : s.params.aluVfRead with
  | snapshot => exact hsnap hp
  | reread =>
    have hx : x ≠ vf := h.resolve_left (by simp [hp])
    rw [hre hp, if_neg hx]

/-- Settles O44: with Vx = VF read again the bit shifted out is what is shifted. -/
theorem shiftsByOne : Obligations.ShiftsByOne := by
  intro x y s
  refine ⟨encodedAs_formatXY rfl rfl, encodedAs_formatXY rfl rfl, ?_, ?_⟩
  · obtain ⟨t, ht, hpc, hf, hvf, hres, hre⟩ :=
      flagAlu_shift_spec x y (R := (· / 2)) (toNat_lowBitFlag (s.getV x)) toNat_shr_one
    refine ⟨t, ht, hpc, hf, hvf, hres, fun hp hx => ?_⟩
    rw [hre hp hx]
    omega
  · obtain ⟨t, ht, hpc, hf, hvf, hres, hre⟩ :=
      flagAlu_shift_spec x y (R := (· * 2 % 256)) (toNat_highBitFlag (s.getV x)) toNat_shl_one
    refine ⟨t, ht, hpc, hf, hvf, hres, fun hp hx => ?_⟩
    have hlt := (s.getV x).isLt
    rw [hre hp hx]
    omega

/-- The parameters with another ALU_VF_READ. -/
def State.withAluVfRead (s : State) (a : AluVfRead) : State := { s with params := { s.params with aluVfRead := a } }

/-- Where neither operand is VF, reading again reads the same. -/
theorem writeFlagAndReg_reread {x y : Reg} (hx : x ≠ vf) (hy : y ≠ vf) (flag result : Byte → Byte → Byte) (s : State) :
    writeFlagAndReg x y flag result (s.withAluVfRead .reread) =
      (writeFlagAndReg x y flag result (s.withAluVfRead .snapshot)).withAluVfRead .reread := by
  simp only [writeFlagAndReg, State.withAluVfRead, State.getV_setV_ne _ _ hx, State.getV_setV_ne _ _ hy]
  rfl

theorem flagAlu_reread {x y : Reg} (hx : x ≠ vf) (hy : y ≠ vf) {flag result : Byte → Byte → Byte} {s t : State}
    (h : flagAlu x y flag result (s.withAluVfRead .snapshot) = .next t) :
    flagAlu x y flag result (s.withAluVfRead .reread) = .next { t with params := { s.params with aluVfRead := .reread } } := by
  obtain rfl := Host.Outcome.next.inj h
  rw [flagAlu, writeFlagAndReg_reread hx hy]
  rfl

/-- Settles O45: each of the five has the shape of R132. -/
theorem aluVfReadMattersOnlyForVf : Obligations.AluVfReadMattersOnlyForVf := by
  intro x y i s t hx hy hi h
  simp only [List.mem_cons, List.not_mem_nil, or_false] at hi
  obtain rfl | rfl | rfl | rfl | rfl := hi <;> exact flagAlu_reread hx hy h

/-! ### RND -/

/-- Settles O46: a bit of an AND is 0 where the mask's is. -/
theorem randomByteIsMasked : Obligations.RandomByteIsMasked := by
  intro x kk s
  have hx : (s.countDraw.setV x (s.nextByte &&& kk)).advance.getV x = Config.drawByte s.draws &&& kk := State.getV_setV_self ..
  refine ⟨encodedAs_of_encode rfl, _, rfl, hx, rfl, fun b hb => ?_, rfl, ?_⟩
  · rw [hx, BitVec.getLsbD_and, hb, Bool.and_false]
  · exact ((unchanged_countDraw (by simp) _ s).trans (unchanged_setV (by simp) _ _ _)).trans (unchanged_advance _ _ _)

end Sys2Proof.Machine
end

section
/-! SUPPORT. The index register, the timer transfers and the key wait (R180 to R185). -/

namespace Sys2Proof.Machine

variable {s : State}

theorem toNat_byteWord (b : Byte) : (byteWord b).toNat = b.toNat := BitVec.toNat_setWidth_of_le (by decide)

/-- A handler that writes I and goes on. -/
theorem setI_advance_frame (w : Word) (s : State) : UnchangedBut [] [.i] s (s.setI w).advance :=
  (unchanged_setI (by simp) _ _ _).trans (unchanged_advance _ _ _)

/-- Settles O47: the sum is of 16-bit words, and 255 times 5 fits in one. -/
theorem indexWrites : Obligations.IndexWrites := by
  intro x s
  refine ⟨encodedAs_formatX rfl rfl, encodedAs_formatX rfl rfl, ⟨_, rfl, ?_, rfl, setI_advance_frame _ s⟩,
    ⟨_, rfl, ?_, rfl, setI_advance_frame _ s⟩⟩
  · rw [State.advance_i, State.setI_i, BitVec.toNat_add, toNat_byteWord]
  · have hlt := (s.getV x).isLt
    rw [State.advance_i, State.setI_i, BitVec.toNat_mul, toNat_byteWord, show (5 : Word).toNat = 5 from rfl]
    omega

/-- Settles O48: each handler is one write and goes on. -/
theorem timerTransfers : Obligations.TimerTransfers := by
  intro x s
  refine ⟨encodedAs_formatX rfl rfl, encodedAs_formatX rfl rfl, encodedAs_formatX rfl rfl, writeReg_spec x s.dt s, ?_, ?_⟩
  · exact ⟨_, exec_ldDtVx x s, rfl, rfl, (unchanged_setDt (by simp) _ _ _).trans (unchanged_advance _ _ _)⟩
  · exact ⟨_, exec_ldStVx x s, rfl, rfl, (unchanged_setSt (by simp) _ _ _).trans (unchanged_advance _ _ _)⟩

theorem chooseKey_mem (s : State) (k : Nat) (ks : List Nat) : chooseKey s k ks ∈ k :: ks := by
  unfold chooseKey
  split
  · exact List.mem_cons_self
  · have hlt : s.nextChoice (ks.length + 1) < (k :: ks).length := Nat.mod_lt _ (Nat.succ_pos _)
    rw [List.getD_eq_getElem _ _ hlt]
    exact List.getElem_mem hlt

/-- The first key listed is the lowest one pressed. -/
theorem keyDown_of_lt_first {k : Nat} {ks : List Nat} (h : s.pressedKeys = k :: ks) {j : Nat} (hj : j < k) :
    s.keyDown j = false := by
  have hsorted := pressedKeys_sorted s
  have hk : k < 16 := (mem_pressedKeys.mp (h ▸ List.mem_cons_self)).1
  rw [h, List.pairwise_cons] at hsorted
  by_contra hdown
  have hmem : j ∈ s.pressedKeys := mem_pressedKeys.mpr ⟨by omega, by simpa using hdown⟩
  rw [h, List.mem_cons] at hmem
  obtain rfl | hmem := hmem
  · omega
  · have := hsorted.1 j hmem
    omega

theorem unchanged_countKeyDraw (regs : List Reg) (s : State) : UnchangedBut regs [.draws] s (countKeyDraw s) := by
  cases hs : s.params.keySelect with
  | lowest =>
    rw [countKeyDraw_lowest hs]
    exact UnchangedBut.refl _ _ s
  | any =>
    rw [countKeyDraw_any hs]
    exact unchanged_countDraw (by simp) _ s

/-- Settles O49: the keys are listed lowest first, and the one chosen is in the list. -/
theorem keyWaitRecordsAPressedKey : Obligations.KeyWaitRecordsAPressedKey := by
  intro x s
  refine ⟨encodedAs_formatX rfl rfl, ?_, fun h => exec_ldVxK_stall x h⟩
  rintro ⟨j, hj, hdown⟩
  cases hks : s.pressedKeys with
  | nil =>
    rw [pressedKeys_eq_nil_iff.mp hks j hj] at hdown
    cases hdown
  | cons k ks =>
    obtain ⟨hlt, hpressed⟩ := mem_pressedKeys.mp (hks ▸ chooseKey_mem s k ks)
    refine ⟨_, chooseKey s k ks, execLdVxK_of_pressed hks x, hlt, hpressed, fun hs j hj => ?_, fun hs => ?_,
      State.getV_setV_self .., ?_, ?_⟩
    · rw [chooseKey_lowest hs] at hj
      exact keyDown_of_lt_first hks hj
    · rw [countKeyDraw_lowest hs]
      rfl
    · rw [State.advance_pc, State.setV_pc, countKeyDraw_pc]
    · exact ((unchanged_countKeyDraw _ s).trans (unchanged_setV (by simp) _ _ _)).trans (unchanged_advance _ _ _)

end Sys2Proof.Machine
end

section
/-! SUPPORT. The block instructions: what they store and load, and the fault at the first bad address (R62 to R64, R70, R73, R186 to
R188, R203). -/

namespace Sys2Proof.Machine

variable {s t : State}

theorem guarded_of_readable {len : Nat} (h : Readable s len) (u : State) : guarded (readOffence s len) s u = .next u := by
  rw [readOffence_eq_none.mpr h, guarded_none]

theorem guarded_of_writable {len : Nat} (h : Writable s len) (u : State) : guarded (writeOffence s len) s u = .next u := by
  rw [writeOffence_eq_none.mpr h, guarded_none]

theorem exec_ldBVx (x : Reg) (h : Writable s 3) : exec (.ldBVx x) s = .next (storeBlock s (bcdBytes (s.getV x))).advance :=
  guarded_of_writable h _

theorem exec_ldMemVx (x : Reg) (h : Writable s (x.toNat + 1)) : exec (.ldMemVx x) s = .next (storeBlock s (regBlock s x)).advance :=
  guarded_of_writable h _

theorem exec_ldVxMem (x : Reg) (h : Readable s (x.toNat + 1)) :
    exec (.ldVxMem x) s = .next (writeRegs s 0 (loadBlock s (x.toNat + 1))).advance :=
  guarded_of_readable h _

theorem storeBlock_advance_frame (s : State) (bs : List Byte) : UnchangedBut [] [.memory] s (storeBlock s bs).advance :=
  (unchanged_storeBlock (by simp) _ _ _).trans (unchanged_advance _ _ _)

/-! ### The stores -/

theorem toNat_byte_div (b : Byte) {n : Nat} (hn : n < 256) : (b / BitVec.ofNat 8 n).toNat = b.toNat / n := by
  rw [BitVec.toNat_udiv, BitVec.toNat_ofNat, Nat.mod_eq_of_lt hn]

theorem toNat_byte_mod (b : Byte) {n : Nat} (hn : n < 256) : (b % BitVec.ofNat 8 n).toNat = b.toNat % n := by
  rw [BitVec.toNat_umod, BitVec.toNat_ofNat, Nat.mod_eq_of_lt hn]

/-- Settles O50: the three bytes stored are the digits. -/
theorem bcdStoresThreeDigits : Obligations.BcdStoresThreeDigits := by
  intro x s
  refine ⟨encodedAs_formatX rfl rfl, fun hw => ⟨_, exec_ldBVx x hw, ?_⟩⟩
  have hread : ∀ {k : Nat} (hk : k < 3), (storeBlock s (bcdBytes (s.getV x))).mem.read (blockAddr s.params s.i k) =
      (bcdBytes (s.getV x))[k] := fun hk => storeBlock_read_getElem s (bcdBytes (s.getV x)) (by simp [bcdBytes]) hk
  simp only [State.advance_mem]
  refine ⟨?_, ?_, ?_, fun a ha => storeBlock_read_of_ne s _ ha, rfl, storeBlock_advance_frame s _⟩
  · rw [hread (k := 0) (by decide)]
    exact toNat_byte_div _ (by decide)
  · rw [hread (k := 1) (by decide)]
    exact (toNat_byte_mod _ (by decide)).trans (congrArg (· % 10) (toNat_byte_div _ (by decide)))
  · rw [hread (k := 2) (by decide)]
    exact toNat_byte_mod _ (by decide)

/-- A stored block of registers reads back as the registers. -/
theorem read_storeBlock_regBlock (s : State) (x : Reg) {k : Nat} (hk : k ≤ x.toNat) :
    (storeBlock s (regBlock s x)).mem.read (blockAddr s.params s.i k) = s.getV (BitVec.ofNat 4 k) := by
  have hx : x.toNat < 16 := x.isLt
  have hlen : k < (regBlock s x).length := by rw [length_regBlock]; omega
  rw [storeBlock_read_getElem s _ (by rw [length_regBlock]; omega) hlen, getElem_regBlock]

/-- Settles O51: the bytes stored are the registers, in order. -/
theorem registerStoreWritesTheBlock : Obligations.RegisterStoreWritesTheBlock := by
  intro x s
  refine ⟨encodedAs_formatX rfl rfl, fun hw => ⟨_, exec_ldMemVx x hw, fun k hk => read_storeBlock_regBlock s x hk,
    fun a ha => ?_, rfl, storeBlock_advance_frame s _⟩⟩
  refine storeBlock_read_of_ne s _ fun k hk => ha k ?_
  rw [length_regBlock] at hk
  omega

/-- Settles O54: the word's bytes are at I and I + 1, where the fetch reads them; I itself is in memory, so it does not wrap. -/
theorem storedWordIsFetched : Obligations.StoredWordIsFetched := by
  intro x s t u hx hw hi h hm hp hpc
  obtain rfl := Host.Outcome.next.inj ((exec_ldMemVx x hw).symm.trans h)
  have h0 : blockAddr s.params s.i 0 = s.i.toNat := by
    cases hwrap : s.params.addrWrap with
    | unwrapped => rw [blockAddr_unwrapped hwrap]; rfl
    | mod4096 => rw [blockAddr_mod4096 hwrap]; omega
  have h1 : secondByteAddr u = blockAddr s.params s.i 1 := by
    rw [secondByteAddr, hp, hpc]
    rfl
  refine fetch16_eq_ok.mpr ⟨hpc ▸ hi, h1 ▸ (hw 1 (by omega)).1, ?_⟩
  rw [hm, h1, hpc, ← h0]
  exact congrArg₂ wordOfBytes (read_storeBlock_regBlock s x (Nat.zero_le _)).symm (read_storeBlock_regBlock s x hx).symm

/-! ### The load -/

theorem getV_load (s : State) (x : Reg) (r : Reg) : (writeRegs s 0 (loadBlock s (x.toNat + 1))).getV r =
    if r.toNat ≤ x.toNat then s.mem.read (blockAddr s.params s.i r.toNat) else s.getV r := by
  have hx : x.toNat < 16 := x.isLt
  rw [getV_writeRegs _ _ _ _ (by rw [length_loadBlock]; omega)]
  by_cases hr : r.toNat ≤ x.toNat
  · have hlt : 0 ≤ r.toNat ∧ r.toNat - 0 < (loadBlock s (x.toNat + 1)).length := by rw [length_loadBlock]; omega
    rw [dif_pos hlt, if_pos hr, getElem_loadBlock]
    rfl
  · have hge : ¬ (0 ≤ r.toNat ∧ r.toNat - 0 < (loadBlock s (x.toNat + 1)).length) := by rw [length_loadBlock]; omega
    rw [dif_neg hge, if_neg hr]

/-- Settles O52: the registers up to x read as the bytes loaded. -/
theorem registerLoadReadsTheBlock : Obligations.RegisterLoadReadsTheBlock := by
  intro x s
  refine ⟨encodedAs_formatX rfl rfl, fun hr => ⟨_, exec_ldVxMem x hr, fun k hk => ?_, fun r hxr => ?_, ?_, ?_⟩⟩
  · have hx : x.toNat < 16 := x.isLt
    have hk4 : (BitVec.ofNat 4 k : Reg).toNat = k := by rw [BitVec.toNat_ofNat]; omega
    rw [State.advance_getV, getV_load, hk4, if_pos hk]
  · rw [State.advance_getV, getV_load, if_neg (by omega)]
  · rw [State.advance_pc, writeRegs_pc]
  · refine (unchanged_writeRegs _ _ 0 _ fun j _ hj => ?_).trans (unchanged_advance _ _ _)
    rw [length_loadBlock, Nat.zero_add] at hj
    exact List.mem_map.mpr ⟨j, List.mem_range.mpr hj, rfl⟩

/-! ### The first offence -/

theorem readCheck_of_gt {a : Nat} (h : a > 0xFFF) : readCheck a = some (.memRead a) := by
  simp [readCheck, h]

theorem writeCheck_of_not_writable {p : Params} {a : Nat} (h : ¬ WritableAddr p a) :
    writeCheck p a = some (if a > 0xFFF then .memWrite a else .reservedWrite a) := by
  by_cases ha : a > 0xFFF
  · simp [writeCheck, ha]
  · have hres : p.protectReserved = true ∧ a < 0x200 := by
      simp only [WritableAddr, not_and, Classical.not_imp] at h
      exact ⟨(h (by omega)).1, by have := (h (by omega)).2; omega⟩
    simp [writeCheck, ha, hres]

/-- A read block faults at its first byte above memory. -/
theorem guarded_readOffence {len k a : Nat} (ha : a = blockAddr s.params s.i k) (hk : k < len)
    (hbefore : ∀ j, j < k → blockAddr s.params s.i j ≤ 0xFFF) (hgt : a > 0xFFF) (u : State) :
    guarded (readOffence s len) s u = .next (s.enterFault (.memRead a)) := by
  have ho : readOffence s len = some (.memRead a) :=
    findSome?_blockAddrs hk (fun j hj => readCheck_eq_none.mpr (hbefore j hj)) (ha ▸ readCheck_of_gt hgt)
  rw [ho, guarded_some]

/-- A stored block faults at its first byte that may not be written. -/
theorem guarded_writeOffence {len k a : Nat} (ha : a = blockAddr s.params s.i k) (hk : k < len)
    (hbefore : ∀ j, j < k → WritableAddr s.params (blockAddr s.params s.i j)) (hbad : ¬ WritableAddr s.params a) (u : State) :
    guarded (writeOffence s len) s u = .next (s.enterFault (if a > 0xFFF then .memWrite a else .reservedWrite a)) := by
  have ho : writeOffence s len = some (if a > 0xFFF then .memWrite a else .reservedWrite a) :=
    findSome?_blockAddrs hk (fun j hj => writeCheck_eq_none.mpr (hbefore j hj)) (ha ▸ writeCheck_of_not_writable hbad)
  rw [ho, guarded_some]

/-- Settles O53: the check goes through the block in order and keeps the first offence. -/
theorem blockFaultNamesTheFirstOffence : Obligations.BlockFaultNamesTheFirstOffence := by
  intro s x y n k a ha
  refine ⟨fun hbefore hgt => ⟨fun hk => ?_, fun hk => ?_⟩, ?_⟩
  · exact guarded_readOffence ha hk hbefore hgt _
  · exact guarded_readOffence ha hk hbefore hgt _
  · rintro hbefore hbad c rfl
    exact ⟨fun hk => guarded_writeOffence ha hk hbefore hbad _, fun hk => guarded_writeOffence ha hk hbefore hbad _⟩

end Sys2Proof.Machine
end

section
/-! SUPPORT. DRW (R160 to R163). -/

namespace Sys2Proof.Machine

variable {x y : Reg} {n : Nibble} {s t : State}

theorem exec_drw (x y : Reg) (h : Readable s n.toNat) : exec (.drw x y n) s = .next (drawEffect x y n s) :=
  guarded_of_readable h _

theorem drawEffect_disp (x y : Reg) (n : Nibble) (s : State) : (drawEffect x y n s).disp = (drawSprite x y n s).1 := rfl

theorem drawEffect_getV_vf (x y : Reg) (n : Nibble) (s : State) : (drawEffect x y n s).getV vf = flagOf (drawSprite x y n s).2 :=
  State.getV_setV_self ..

theorem drawEffect_frame (x y : Reg) (n : Nibble) (s : State) : UnchangedBut [vf] [.screen] s (drawEffect x y n s) :=
  (((unchanged_setDisp (by simp) _ _ _).trans (unchanged_setV (by simp) _ _ _)).trans (unchanged_setRedraw (by simp) _ _ _)).trans
    (unchanged_advance _ _ _)

/-- The flag of DRW is 1 exactly when the sprite covers a pixel that is on (R163). -/
theorem drawEffect_vf_of_hit (h : ∃ r c, SpriteCovers s x y n r c ∧ pixel s.disp r c = true) :
    (drawEffect x y n s).getV vf = 1#8 := by
  rw [drawEffect_getV_vf, (drawSprite_spec x y n s).2.2.mpr h]
  rfl

theorem drawEffect_vf_of_no_hit (h : ∀ r c, SpriteCovers s x y n r c → pixel s.disp r c = false) :
    (drawEffect x y n s).getV vf = 0#8 := by
  have hno : (drawSprite x y n s).2 = false := by
    rw [Bool.eq_false_iff, ne_eq, (drawSprite_spec x y n s).2.2]
    rintro ⟨r, c, hc, hp⟩
    rw [h r c hc] at hp
    cases hp
  rw [drawEffect_getV_vf, hno]
  rfl

/-- Settles O55: a pixel is erased when it is covered and on. -/
theorem drawTogglesTheCoveredPixels : Obligations.DrawTogglesTheCoveredPixels := by
  intro x y n s
  obtain ⟨hon, hoff, -⟩ := drawSprite_spec x y n s
  refine ⟨encodedAs_of_encode rfl, fun hr =>
    ⟨_, exec_drw x y hr, hon, hoff, ?_, fun hkept => ?_, rfl, rfl, drawEffect_frame x y n s⟩⟩
  · rintro ⟨r, c, hset, herased⟩
    refine drawEffect_vf_of_hit ⟨r, c, ?_, hset⟩
    by_contra hc
    rw [drawEffect_disp, hoff r c hc, hset] at herased
    cases herased
  · refine drawEffect_vf_of_no_hit fun r c hc => ?_
    by_contra hset
    have hset : pixel s.disp r c = true := by simpa using hset
    have hstill := hkept r c hset
    rw [drawEffect_disp, hon r c hc, hset] at hstill
    cases hstill

/-- What a sprite covers depends on memory, I, the coordinates and the parameters. -/
theorem spriteCovers_congr (hm : t.mem = s.mem) (hi : t.i = s.i) (hp : t.params = s.params) (hx : t.getV x = s.getV x)
    (hy : t.getV y = s.getV y) (r : Fin 32) (c : Fin 64) : SpriteCovers t x y n r c ↔ SpriteCovers s x y n r c := by
  simp only [SpriteCovers, SpritePixelOn, hm, hi, hp, hx, hy]

/-- With neither coordinate in VF a draw leaves what the sprite covers. -/
theorem spriteCovers_drawEffect (hx : x ≠ vf) (hy : y ≠ vf) (r : Fin 32) (c : Fin 64) :
    SpriteCovers (drawEffect x y n s) x y n r c ↔ SpriteCovers s x y n r c :=
  spriteCovers_congr (s := s) (t := drawEffect x y n s) rfl rfl rfl ((drawEffect_frame x y n s).regs x (by simpa using hx))
    ((drawEffect_frame x y n s).regs y (by simpa using hy)) r c

/-- Settles O56: the second draw toggles the same pixels back. -/
theorem drawingTwiceRestoresTheDisplay : Obligations.DrawingTwiceRestoresTheDisplay := by
  intro x y n s t u hx hy hr ht hu
  obtain rfl := Host.Outcome.next.inj ((exec_drw x y hr).symm.trans ht)
  obtain rfl := Host.Outcome.next.inj ((exec_drw (s := drawEffect x y n s) x y hr).symm.trans hu)
  obtain ⟨hon, hoff, -⟩ := drawSprite_spec x y n s
  obtain ⟨hon', hoff', -⟩ := drawSprite_spec x y n (drawEffect x y n s)
  have hsame := spriteCovers_drawEffect (n := n) (s := s) hx hy
  refine ⟨display_ext fun r c => ?_, fun hblank => ⟨?_, ?_⟩⟩
  · rw [drawEffect_disp]
    by_cases hc : SpriteCovers s x y n r c
    · rw [hon' r c ((hsame r c).mpr hc), drawEffect_disp, hon r c hc, Bool.not_not]
    · rw [hoff' r c fun h => hc ((hsame r c).mp h), drawEffect_disp, hoff r c hc]
  · exact drawEffect_vf_of_no_hit fun r c _ => hblank r c
  · rintro ⟨r, c, hc⟩
    refine drawEffect_vf_of_hit ⟨r, c, (hsame r c).mpr hc, ?_⟩
    rw [drawEffect_disp, hon r c hc, hblank r c]
    rfl

end Sys2Proof.Machine
end
